-- ==== Sys2Proof/Word.lean ====
section
/-! DEFINITION. The word types of the NQC block: bytes, 32-bit command and register words, byte strings (00_scope.md R7). -/

namespace Sys2Proof

/-- A byte, 0..255 (00_scope.md R7). -/
abbrev Byte := BitVec 8

/-- A 32-bit word: a command word, STATUS, FBCTL, the data of a host access (10_state.md R22). -/
abbrev Word := BitVec 32

/-- A byte string; element 0 is the first byte (00_scope.md R7). -/
abbrev Bytes := List Byte

end Sys2Proof
end

