-- ==== Sys2Proof/Syntax.lean ====
section
/-! DEFINITION. The commands of the block: one constructor per row of spec/opcode_table.json (30_encoding.md R84). -/

namespace Sys2Proof

/-- A command (30_encoding.md R84). `len` is the LEN operand of the command line as written (R90), legal in 0..63
(WellFormed.lean); every other operand is a register fixed by the opcode (R82). -/
inductive Instr where
  /-- 0x00, 43_control.md R190. -/
  | nop
  /-- 0x01, 40_keystream.md R109. -/
  | keyload
  /-- 0x02, 40_keystream.md R110. -/
  | gen (len : Nat)
  /-- 0x03, 41_stream.md R131. -/
  | sinit
  /-- 0x04, 41_stream.md R132. -/
  | senc (len : Nat)
  /-- 0x05, 41_stream.md R133. -/
  | sdec (len : Nat)
  /-- 0x08, 42_encoder.md R163. -/
  | encode
  /-- 0x09, 42_encoder.md R164. -/
  | decode
  /-- 0x0A, 42_encoder.md R165. -/
  | add
  /-- 0x0B, 42_encoder.md R166. -/
  | scale
  deriving DecidableEq, Repr

end Sys2Proof
end

