-- ==== Sys2Proof/WellFormed.lean ====
section
/-! DEFINITION. Which commands have a command word: LEN is a 6-bit field (30_encoding.md R82, R90). -/

namespace Sys2Proof

/-- A LEN operand the syntax admits: "the decimal LEN value 0..63" (30_encoding.md R90). -/
def lenOk (n : Nat) : Bool := n ≤ 63

/-- 30_encoding.md R90: "An operand outside 0..63 ... is a syntax error: no word is produced." -/
def Instr.wf (i : Instr) : Bool :=
  match i with
  | .nop => true
  | .keyload => true
  | .gen n => lenOk n
  | .sinit => true
  | .senc n => lenOk n
  | .sdec n => lenOk n
  | .encode => true
  | .decode => true
  | .add => true
  | .scale => true

end Sys2Proof
end

