-- ==== Sys2Proof/Decode.lean ====
section
/-! DEFINITION. The command word: its fields, the decoder (total on every 32-bit word), the encoder, and the spec's table
of match and mask (30_encoding.md R80 to R85, R90). The block's fetch unit is the whole 32-bit word of one CMD write
(R80), so the decoder reads a word, not a byte stream. -/

namespace Sys2Proof

/-- OP, bits 7:0 (30_encoding.md R81). -/
def opField (c : Word) : BitVec 8 := c.extractLsb' 0 8

/-- LEN, bits 13:8, "an unsigned 6-bit field, ... zero-extended" (30_encoding.md R81, R82). -/
def lenField (c : Word) : BitVec 6 := c.extractLsb' 8 6

/-- RSV, bits 31:14, must be 0 (30_encoding.md R81). -/
def rsvField (c : Word) : BitVec 18 := c.extractLsb' 14 18

/-- A command without LEN: its LEN bits must be 0 (30_encoding.md R85 item 3). -/
def withoutLen (len : Nat) (i : Instr) : Option Instr := if len = 0 then some i else none

/-- The opcode map (30_encoding.md R84); an unassigned opcode is `none` (R85 item 1). -/
def decodeOp (op len : Nat) : Option Instr :=
  match op with
  | 0x00 => withoutLen len .nop
  | 0x01 => withoutLen len .keyload
  | 0x02 => some (.gen len)
  | 0x03 => withoutLen len .sinit
  | 0x04 => some (.senc len)
  | 0x05 => some (.sdec len)
  | 0x08 => withoutLen len .encode
  | 0x09 => withoutLen len .decode
  | 0x0A => withoutLen len .add
  | 0x0B => withoutLen len .scale
  | _ => none

/-- `decode(c)` of 30_encoding.md R85; `none` is ILLEGAL. The command keeps LEN as it stands in the word; the effective
length min(LEN, 32) of R83 is taken by the meanings (log entry 10). -/
def decode (c : Word) : Option Instr :=
  if rsvField c = 0 then decodeOp (opField c).toNat (lenField c).toNat else none

/-- `match(mn) OR (n << 8)` (30_encoding.md R90). -/
def wordWithLen (m : Word) (n : Nat) : Word := m ||| (BitVec.ofNat 32 n <<< 8)

/-- The command word of a well-formed command (30_encoding.md R84, R90). -/
def encode (i : Instr) : Word :=
  match i with
  | .nop => 0x00000000
  | .keyload => 0x00000001
  | .gen n => wordWithLen 0x00000002 n
  | .sinit => 0x00000003
  | .senc n => wordWithLen 0x00000004 n
  | .sdec n => wordWithLen 0x00000005 n
  | .encode => 0x00000008
  | .decode => 0x00000009
  | .add => 0x0000000A
  | .scale => 0x0000000B

/-- `enc` of 30_encoding.md R90: a syntax error produces no word. -/
def assemble (i : Instr) : Option Word := if i.wf then some (encode i) else none

/-- One row of the pattern table of 30_encoding.md R84. -/
structure Row where
  matchWord : Word
  mask : Word
  build : Nat → Instr

/-- The pattern table of 30_encoding.md R84, row by row. -/
def rows : List Row :=
  [ ⟨0x00000000, 0xFFFFFFFF, fun _ => .nop⟩,
    ⟨0x00000001, 0xFFFFFFFF, fun _ => .keyload⟩,
    ⟨0x00000002, 0xFFFFC0FF, .gen⟩,
    ⟨0x00000003, 0xFFFFFFFF, fun _ => .sinit⟩,
    ⟨0x00000004, 0xFFFFC0FF, .senc⟩,
    ⟨0x00000005, 0xFFFFC0FF, .sdec⟩,
    ⟨0x00000008, 0xFFFFFFFF, fun _ => .encode⟩,
    ⟨0x00000009, 0xFFFFFFFF, fun _ => .decode⟩,
    ⟨0x0000000A, 0xFFFFFFFF, fun _ => .add⟩,
    ⟨0x0000000B, 0xFFFFFFFF, fun _ => .scale⟩ ]

/-- `c AND mask = match` (30_encoding.md R85). -/
def Row.hits (r : Row) (c : Word) : Bool := c &&& r.mask == r.matchWord

/-- What the decoder reads from a table word. Every row has 32 bits and the block's word is the command word itself;
bits at and above `nbits` are 0. A longer word is no command (30_encoding.md R80). -/
def decodeTableWord (nbits w : Nat) : Option Instr :=
  if nbits ≤ 32 then decode (BitVec.ofNat 32 (w % 2 ^ nbits)) else none

end Sys2Proof
end

