-- ==== Sys2Proof/Config.lean ====
section
/-! DEFINITION. What the spec fixes as constants (00_scope.md R5) and the three parameters whose values no source gives
(00_scope.md R6), together with the free draws of 10_state.md R40. The parameters are opaque: nothing can be proved of
their values, so every claim holds for all of them. -/

namespace Sys2Proof

namespace Config

/-- BLK_BYTES and KEY_BYTES, 32 (00_scope.md R5). -/
abbrev blkBytes : Nat := 32

/-- FB_BYTES, 16 (00_scope.md R5). -/
abbrev fbBytes : Nat := 16

/-- SCALAR_BYTES, 8 (00_scope.md R5). -/
abbrev scalarBytes : Nat := 8

/-- SCALE, 1000 (00_scope.md R5): ENCODE multiplies the value by it. -/
abbrev scale : Nat := 1000

/-- NOISE_MOD, 1000 (00_scope.md R5). -/
abbrev noiseMod : Nat := 1000

/-- The type of `KSG_CORE` (40_keystream.md R102): seed, normalised block, normalised feedback or none, to 32 bytes.
That it is a total function of these three arguments into bytes is all R102 lets a model assume. -/
abbrev Ksg := BitVec 64 → Vector Byte 32 → Option (Vector Byte 16) → Vector Byte 32

/-- `KSG_CORE`, the whole keystream transform, whose numerics no source gives (00_scope.md R6, 40_keystream.md R102,
R103). Free; DESIGN CHOICE, log entry 1, safe. -/
opaque ksgCore : Ksg

/-- `LAT` (00_scope.md R6, 30_encoding.md R89, 70_reset_and_hazards.md R243): how many host steps the engine stays idle
before it completes a command, for the command issued when the free-value counter stands at the argument. Finite and
otherwise unconstrained. Free; DESIGN CHOICE, log entry 2. -/
opaque lat : Nat → Nat

/-- The value drawn for one byte of a host read while BUSY = 1 (10_state.md R40, 20_memory.md R54). Free; DESIGN CHOICE,
log entry 7, safe. -/
opaque drawByte : Nat → Byte

/-- The value drawn for a host read of FBCTL while BUSY = 1 (20_memory.md R54). Free; DESIGN CHOICE, log entry 7, safe. -/
opaque drawWord : Nat → Word

/-- `BASE`, the platform address of the window (00_scope.md R6, 20_memory.md R50, R61). No rule depends on it; every
offset of this model is relative to it. Log entry 13. -/
opaque base : Nat

end Config

end Sys2Proof
end

