-- ==== Sys2Proof/Machine/State.lean ====
section
/-! DEFINITION. The state: the block's registers (10_state.md R42), the host's side of the window, and the model's own
scheduling fields; the fault and refusal names; the state after reset (70_reset_and_hazards.md R230). -/

namespace Sys2Proof.Machine

/-- The error conditions of 60_exceptions.md R200 ("The codes are names for a model's fault type"). The block never
stops on one (R209): each is RECORDED, in STATUS or on the host's bus, and the machine goes on. So no step answers
`Outcome.fault`; log entry 6, safe. -/
inductive Fault where
  /-- Code 1. Raised by a completion whose word decodes to ILLEGAL (R201). Recorded in STATUS; safe. -/
  | eIll
  /-- Code 2. Raised by GEN, SENC, SDEC, ENCODE, DECODE with KEYV = 0 (R202). Recorded in STATUS; safe. -/
  | eNokey
  /-- Code 3. Raised by SENC, SDEC with SCLOSED = 1 (R203). Recorded in STATUS; safe. -/
  | eSeq
  /-- Code 4. Raised by ENCODE, ADD, SCALE with a result outside 0..2^64-1 (R204). Recorded in STATUS; safe. -/
  | eOvf
  /-- Code 5. Raised by a host write to any register but STATUS while BUSY = 1 (R205). Recorded in STATUS; safe. -/
  | eBusy
  /-- No code. Raised by an illegal host access (20_memory.md R56, R57). Recorded on the host's side; safe. -/
  | busfault
  deriving DecidableEq, Repr

/-- Reasons for which a command has no meaning. No command of this model is refused. -/
inductive Refusal where
  /-- Raised only by an arm of `exec` that is not modelled; there is none. Safe. -/
  | notModelled (mnemonic : String)
  deriving DecidableEq, Repr

/-- The name a host program gives to the value it reads (30_encoding.md R91). -/
abbrev Name := List Char

/-- One input of the block: a host access (20_memory.md R52, R54; 30_encoding.md R91), the host's polling loop (R95), or
the platform's reset event (70_reset_and_hazards.md R231). An access carries any width, so that the illegal ones of
20_memory.md R56 can be written down; the data of an 8-bit write is the low byte of `v`. -/
inductive Input where
  | write (off : BitVec 8) (w : Nat) (v : Word)
  | read (off : BitVec 8) (w : Nat) (name : Name)
  | wait
  | reset
  deriving DecidableEq, Repr

/-- What an access answers on the host's bus: the value of a read, or the error response of a busfault (20_memory.md R57).
A read of 8 bits answers a value below 256 (log entry 16). -/
inductive Reply where
  | data (name : Name) (w : Nat) (v : Word)
  | busError (off : BitVec 8)
  deriving DecidableEq, Repr

/-- The architectural state of the block: exactly the tuple of 10_state.md R42. SEED and NOISE are computed from KEY at
each use, as R36 allows (log entry 9). -/
structure Block where
  key : Vector Byte 32
  blkIn : Vector Byte 32
  blkOut : Vector Byte 32
  fb : Vector Byte 16
  ea : Vector Byte 8
  eb : Vector Byte 8
  er : Vector Byte 8
  iv : Vector Byte 8
  ir : Vector Byte 8
  status : Word
  fbctl : Word
  pend : Option Word
  deriving DecidableEq, Repr

/-- The host's side of the window: the accesses still to come in program order (20_memory.md R64), what earlier ones
answered (newest first), and the busfault record that no later step clears (20_memory.md R57). -/
structure HostSide where
  inputs : List Input
  replies : List Reply
  busFault : Bool
  deriving DecidableEq, Repr

/-- The machine. `delay` is how many more host steps the engine stays idle before it completes the pending command
(`LAT`, log entry 2); `freeIdx` is the counter at which free values are drawn (log entry 7). -/
structure State where
  block : Block
  host : HostSide
  delay : Nat
  freeIdx : Nat
  deriving DecidableEq, Repr

/-- The block after reset: "Every byte register is all zeros", STATUS and FBCTL 0, no command pending
(70_reset_and_hazards.md R230). -/
def Block.reset : Block where
  key := Vector.replicate 32 0
  blkIn := Vector.replicate 32 0
  blkOut := Vector.replicate 32 0
  fb := Vector.replicate 16 0
  ea := Vector.replicate 8 0
  eb := Vector.replicate 8 0
  er := Vector.replicate 8 0
  iv := Vector.replicate 8 0
  ir := Vector.replicate 8 0
  status := 0x00000000
  fbctl := 0x00000000
  pend := none

/-- The machine right after reset. The block's fields are the spec's (R230); the model's own fields (no input, no reply, no
busfault, delay 0, counter 0) are DESIGN CHOICE, log entries 2, 5, 7, 8. -/
def State.reset : State where
  block := Block.reset
  host := ⟨[], [], false⟩
  delay := 0
  freeIdx := 0

end Sys2Proof.Machine
end

