-- ==== Sys2Proof/Machine/Flags.lean ====
section
/-! DEFINITION. STATUS and FBCTL: bit positions, readings and updates (10_state.md R32 to R35), and which STATUS bit
records which fault (60_exceptions.md R200). Reserved bits keep what they hold, which is 0. -/

namespace Sys2Proof.Machine

/-- STATUS.BUSY (10_state.md R32). -/
abbrev bitBusy : Nat := 0
/-- STATUS.DONE (10_state.md R32). -/
abbrev bitDone : Nat := 1
/-- STATUS.KEYV (10_state.md R32). -/
abbrev bitKeyv : Nat := 2
/-- STATUS.SCLOSED (10_state.md R32). -/
abbrev bitSclosed : Nat := 3
/-- STATUS.E_ILL (10_state.md R32). -/
abbrev bitEIll : Nat := 8
/-- STATUS.E_NOKEY (10_state.md R32). -/
abbrev bitENokey : Nat := 9
/-- STATUS.E_SEQ (10_state.md R32). -/
abbrev bitESeq : Nat := 10
/-- STATUS.E_OVF (10_state.md R32). -/
abbrev bitEOvf : Nat := 11
/-- STATUS.E_BUSY (10_state.md R32). -/
abbrev bitEBusy : Nat := 12

/-- Bits DONE and E_ILL to E_BUSY: what a STATUS write can clear (10_state.md R33). -/
abbrev statusClearable : Word := 0x00001F02

/-- The reserved bits 7:4 and 31:13 of STATUS (10_state.md R32). -/
abbrev statusReserved : Word := 0xFFFFE0F0

/-- The fields FBV (bit 0) and FBLEN (bits 12:8) of FBCTL (10_state.md R34); the other bits are reserved. -/
abbrev fbctlFields : Word := 0x00001F01

/-- Bit `k` of a register set to `v`, the other bits kept. -/
def setBit (w : Word) (k : Nat) (v : Bool) : Word :=
  if v then w ||| (1#32 <<< k) else w &&& ~~~(1#32 <<< k)

def Block.busy (b : Block) : Bool := b.status.getLsbD bitBusy
def Block.done (b : Block) : Bool := b.status.getLsbD bitDone
def Block.keyv (b : Block) : Bool := b.status.getLsbD bitKeyv
def Block.sclosed (b : Block) : Bool := b.status.getLsbD bitSclosed

/-- The STATUS bit of a fault (60_exceptions.md R200); a busfault has none. -/
def Fault.statusBit (f : Fault) : Option Nat :=
  match f with
  | .eIll => some bitEIll
  | .eNokey => some bitENokey
  | .eSeq => some bitESeq
  | .eOvf => some bitEOvf
  | .eBusy => some bitEBusy
  | .busfault => none

/-- The cause code of a fault (60_exceptions.md R200): a name only, "No register holds them". -/
def Fault.code (f : Fault) : Option Nat :=
  match f with
  | .eIll => some 1
  | .eNokey => some 2
  | .eSeq => some 3
  | .eOvf => some 4
  | .eBusy => some 5
  | .busfault => none

/-- STATUS after a host write of `w`: the clearable bits that are 1 in `w` are cleared (10_state.md R33). -/
def statusAfterWrite (st w : Word) : Word := st &&& ~~~(w &&& statusClearable)

/-- FBCTL.FBV (10_state.md R34). -/
def Block.fbv (b : Block) : Bool := b.fbctl.getLsbD 0

/-- FBLEN, bits 12:8 of a word (10_state.md R34). -/
def fblenField (w : Word) : BitVec 5 := w.extractLsb' 8 5

/-- FBCTL.FBLEN as a number (10_state.md R34). -/
def Block.fblen (b : Block) : Nat := (fblenField b.fbctl).toNat

/-- FBCTL with its two fields written, its reserved bits kept. -/
def fbctlWith (w : Word) (v : Bool) (n : BitVec 5) : Word :=
  (w &&& ~~~fbctlFields) ||| ((if v then 1#32 else 0#32) ||| (n.setWidth 32 <<< 8))

/-- A FBLEN value clamped to 16: `min(w[12:8], 16)` (10_state.md R35). -/
def clampFblen (n : BitVec 5) : BitVec 5 := if n ≤ 16#5 then n else 16#5

/-- FBCTL after a host write of `w` while idle (10_state.md R35). -/
def fbctlAfterWrite (old w : Word) : Word := fbctlWith old (w.getLsbD 0) (clampFblen (fblenField w))

end Sys2Proof.Machine
end

