-- ==== Sys2Proof/Machine/Operands.lean ====
section
/-! DEFINITION. Byte strings and integers (00_scope.md R7), and every operand a command reads: effective length, block,
feedback operand, SEED, NOISE, A, B and the signed IV (30_encoding.md R82, R83; 41_stream.md R130; 42_encoder.md R161). -/

namespace Sys2Proof.Machine

/-- `S[a..b)`: only the bytes that exist (00_scope.md R7). -/
def slice (S : Bytes) (a b : Nat) : Bytes := (S.drop a).take (b - a)

/-- `BE_uintN(S)`: first byte most significant (00_scope.md R7). -/
def beUint (S : Bytes) : Nat :=
  match S with
  | [] => 0
  | x :: xs => x.toNat * 256 ^ xs.length + beUint xs

/-- The `n`-byte string that `BE_uint` maps to `v` (00_scope.md R7). -/
def beBytes (n v : Nat) : Bytes :=
  match n with
  | 0 => []
  | n + 1 => BitVec.ofNat 8 (v / 256 ^ n) :: beBytes n v

theorem beBytes_length (n v : Nat) : (beBytes n v).length = n := by
  induction n with
  | zero => rfl
  | succ n ih => simp [beBytes, ih]

/-- `BE_sint64(S)`: the two's-complement reading of 8 bytes (00_scope.md R7). -/
def beSint64 (S : Bytes) : Int :=
  if 128 ≤ (S.headD 0).toNat then (beUint S : Int) - 2 ^ 64 else (beUint S : Int)

/-- `pad(S, n)` as a byte string: "zero-pad if shorter, truncate if longer" (00_scope.md R7). -/
def padBytes (S : Bytes) (n : Nat) : Bytes := S.take n ++ List.replicate (n - S.length) 0

theorem padBytes_length (S : Bytes) (n : Nat) : (padBytes S n).length = n := by
  simp only [padBytes, List.length_append, List.length_take, List.length_replicate]
  omega

/-- `pad(S, n)` as the contents of an `n`-byte register (00_scope.md R7). -/
def pad (S : Bytes) (n : Nat) : Vector Byte n := ⟨(padBytes S n).toArray, by simp [padBytes_length]⟩

/-- The contents of an 8-byte register that reads as the unsigned integer `r` (42_encoder.md R161). -/
def uintReg (r : Nat) : Vector Byte 8 := ⟨(beBytes 8 r).toArray, by simp [beBytes_length]⟩

/-- The contents of an 8-byte register that reads as the signed integer `d` (42_encoder.md R161). -/
def sintReg (d : Int) : Vector Byte 8 := uintReg (d % 2 ^ 64).toNat

/-- `⊕` byte by byte (00_scope.md R7, 41_stream.md R134). -/
def xorBytes (S T : Bytes) : Bytes := List.zipWith (fun x y => x ^^^ y) S T

/-- The effective length `L = min(LEN, 32)` (30_encoding.md R83). -/
def effLen (len : Nat) : Nat := min len Config.blkBytes

/-- The block operand `BLK_IN[0..L)` (10_state.md R24). -/
def Block.inBlock (b : Block) (L : Nat) : Bytes := slice b.blkIn.toList 0 L

/-- `fbop()` (41_stream.md R130). -/
def Block.fbop (b : Block) : Option Bytes := if b.fbv then some (slice b.fb.toList 0 b.fblen) else none

/-- `SEED = BE_uint64(KEY[0..8))` (10_state.md R36). -/
def Block.seed (b : Block) : BitVec 64 := BitVec.ofNat 64 (beUint (slice b.key.toList 0 8))

/-- `NOISE = BE_uint32(KEY[0..4)) mod 1000` (10_state.md R36, 42_encoder.md R160). -/
def Block.noise (b : Block) : Nat := beUint (slice b.key.toList 0 4) % Config.noiseMod

/-- `A = BE_uint64(EA)` (10_state.md R27). -/
def Block.opA (b : Block) : Nat := beUint b.ea.toList

/-- `B = BE_uint64(EB)` (10_state.md R27). -/
def Block.opB (b : Block) : Nat := beUint b.eb.toList

/-- `BE_sint64(IV)`: `v` of ENCODE and `s` of SCALE (10_state.md R29). -/
def Block.opV (b : Block) : Int := beSint64 b.iv.toList

/-- The result of ENCODE, ADD or SCALE as an integer (10_state.md R28). -/
def Block.resE (b : Block) : Nat := beUint b.er.toList

/-- The result of DECODE as an integer (10_state.md R30). -/
def Block.resI (b : Block) : Int := beSint64 b.ir.toList

/-- `generate(B, F)` over a keystream transform and a seed (40_keystream.md R104, R105, R107): the block padded to 32, the
present feedback padded to 16, the output truncated to the block's length. -/
def generate (ksg : Config.Ksg) (seed : BitVec 64) (B : Bytes) (F : Option Bytes) : Bytes :=
  slice (ksg seed (pad B Config.blkBytes) (F.map (fun G => pad G Config.fbBytes))).toList 0 (min B.length Config.blkBytes)

end Sys2Proof.Machine
end

