-- ==== Sys2Proof/Machine/Ops.lean ====
section
/-! DEFINITION. The shared operations: recording a fault (this block's whole exception mechanism, 60_exceptions.md R208,
R209: no control transfer, no saved state, and so no return), completing a command (30_encoding.md R88), the guards
before a command's rule (R88, 60_exceptions.md R207), and when the engine moves (30_encoding.md R88, R89). -/

namespace Sys2Proof.Machine

/-- The state with another block; the host's side and the schedule are kept. -/
def State.withBlock (s : State) (b : Block) : State := { s with block := b }

/-- The state with other inputs still to come. -/
def State.withInputs (s : State) (l : List Input) : State := { s with host := { s.host with inputs := l } }

/-- A fault recorded in its sticky STATUS bit (60_exceptions.md R208, R210); a busfault records nothing in the block
(20_memory.md R57). -/
def Block.recordFault (b : Block) (f : Fault) : Block :=
  match f.statusBit with
  | some k => { b with status := setBit b.status k true }
  | none => b

/-- "STATUS.DONE <- 1; STATUS.BUSY <- 0; PEND dropped" (30_encoding.md R88). -/
def Block.release (b : Block) : Block :=
  { b with status := setBit (setBit b.status bitDone true) bitBusy false, pend := none }

/-- The end of `complete()` (30_encoding.md R88): the rule's whole state change, or, when it raised, nothing but the error
bit; then DONE set, BUSY cleared, PEND dropped. -/
def Block.finish (b : Block) (r : Except Fault Block) : Block :=
  match r with
  | .ok b' => b'.release
  | .error f => (b.recordFault f).release

/-- The completion step of a command whose rule, with its guards, answers `r` (30_encoding.md R88). -/
def completeWith (r : Except Fault Block) (s : State) : Host.Outcome State Fault Refusal :=
  .next (s.withBlock (s.block.finish r))

/-- `needsKey(op) and STATUS.KEYV == 0: err = E_NOKEY` (30_encoding.md R88, 60_exceptions.md R202). -/
def requireKey (b : Block) (r : Except Fault Block) : Except Fault Block :=
  if b.keyv then r else .error .eNokey

/-- `op in {SENC, SDEC} and STATUS.SCLOSED == 1: err = E_SEQ` (30_encoding.md R88, 60_exceptions.md R203). -/
def requireOpen (b : Block) (r : Except Fault Block) : Except Fault Block :=
  if b.sclosed then .error .eSeq else r

/-- ER written with an exact result, or E_OVF when it is outside 0..2^64-1 (42_encoder.md R162). -/
def writeEr (b : Block) (r : Int) : Except Fault Block :=
  if r < 0 ∨ 2 ^ 64 - 1 < r then .error .eOvf else .ok { b with er := uintReg r.toNat }

/-- The completion of a command word that decodes to ILLEGAL (30_encoding.md R88, 60_exceptions.md R201). -/
def completeIllegal (s : State) : Host.Outcome State Fault Refusal := completeWith (.error .eIll) s

/-- BLK_OUT written with an output string and zeros above it (10_state.md R25). -/
def Block.putOut (b : Block) (out : Bytes) : Block := { b with blkOut := pad out Config.blkBytes }

/-- The stream state a pass starts from (40_keystream.md R109, 41_stream.md R131). -/
def Block.startPass (b : Block) : Block :=
  { b with
    fb := Vector.replicate 16 0
    fbctl := fbctlWith b.fbctl false 0#5
    status := setBit b.status bitSclosed false }

/-- The feedback update of a stream step of length `L` (41_stream.md R132, R133): a full block leaves `fb[0..16)` as
feedback, a short one closes the pass. -/
def Block.advance (b : Block) (L : Nat) (fb : Bytes) : Block :=
  if L = 32 then { b with fb := pad (slice fb 0 16) 16, fbctl := fbctlWith b.fbctl true 16#5 }
  else { b with status := setBit b.status bitSclosed true }

/-- The command the engine completes in this step, if it moves: BUSY = 1 with PEND held, and either its idle steps are
used up or the host has no access left (30_encoding.md R88, R89; 70_reset_and_hazards.md R243; log entries 2, 3, 11). -/
def State.engineTurn (s : State) : Option Word :=
  if s.block.busy && (s.delay == 0 || s.host.inputs.isEmpty) then s.block.pend else none

/-- The block as the next step completes command word `c`: PEND holds it, BUSY = 1 and the engine's idle steps are used up
(30_encoding.md R87, R88). It stands for a CMD write made by the host (log entry 8). -/
def State.pendNow (s : State) (c : Word) : State :=
  { s with block := { s.block with pend := some c, status := setBit s.block.status bitBusy true }, delay := 0 }

end Sys2Proof.Machine
end

