-- ==== Sys2Proof/Machine/Control.lean ====
section
/-! DEFINITION. Control commands: NOP (43_control.md). -/

namespace Sys2Proof.Machine

/-- NOP (43_control.md R190): "nothing; completion sets STATUS.DONE". -/
def execNop (s : State) : Host.Outcome State Fault Refusal := completeWith (.ok s.block) s

end Sys2Proof.Machine
end

