-- ==== Sys2Proof/Machine/Encoder.lean ====
section
/-! DEFINITION. AdditiveEncoder commands: ENCODE, DECODE, ADD, SCALE (42_encoder.md). Arithmetic is exact on integers; only
the final result is range-checked (R161, R162). -/

namespace Sys2Proof.Machine

/-- The rule of ENCODE (42_encoder.md R163). -/
def encodeRule (b : Block) : Except Fault Block := writeEr b (b.opV * Config.scale + b.noise)

/-- ENCODE (42_encoder.md R163). -/
def execEncode (s : State) : Host.Outcome State Fault Refusal := completeWith (requireKey s.block (encodeRule s.block)) s

/-- The rule of DECODE (42_encoder.md R164): floor division, "rounding toward negative infinity" (00_scope.md R7). -/
def decodeRule (b : Block) : Block := { b with ir := sintReg (((b.opA : Int) - b.noise) / Config.scale) }

/-- DECODE (42_encoder.md R164). -/
def execDecode (s : State) : Host.Outcome State Fault Refusal :=
  completeWith (requireKey s.block (.ok (decodeRule s.block))) s

/-- The rule of ADD (42_encoder.md R165). -/
def addRule (b : Block) : Except Fault Block := writeEr b ((b.opA : Int) + b.opB)

/-- ADD (42_encoder.md R165): no key. -/
def execAdd (s : State) : Host.Outcome State Fault Refusal := completeWith (addRule s.block) s

/-- The rule of SCALE (42_encoder.md R166): `s` is signed. -/
def scaleRule (b : Block) : Except Fault Block := writeEr b ((b.opA : Int) * b.opV)

/-- SCALE (42_encoder.md R166): no key. -/
def execScale (s : State) : Host.Outcome State Fault Refusal := completeWith (scaleRule s.block) s

end Sys2Proof.Machine
end

