-- ==== Sys2Proof/Machine/Keystream.lean ====
section
/-! DEFINITION. KeystreamGenerator commands: KEYLOAD and GEN (40_keystream.md). -/

namespace Sys2Proof.Machine

/-- The rule of KEYLOAD (40_keystream.md R109). SEED and NOISE are functions of KEY (10_state.md R36), so constructing the
generator is setting KEYV; the stream pass starts anew. -/
def keyloadRule (b : Block) : Block := { b.startPass with status := setBit b.startPass.status bitKeyv true }

/-- KEYLOAD (40_keystream.md R109). -/
def execKeyload (s : State) : Host.Outcome State Fault Refusal := completeWith (.ok (keyloadRule s.block)) s

/-- The rule of GEN L (40_keystream.md R110): no feedback state changes. -/
def genRule (ksg : Config.Ksg) (L : Nat) (b : Block) : Block :=
  b.putOut (generate ksg b.seed (b.inBlock L) b.fbop)

/-- GEN (40_keystream.md R110). -/
def execGen (len : Nat) (s : State) : Host.Outcome State Fault Refusal :=
  completeWith (requireKey s.block (.ok (genRule Config.ksgCore (effLen len) s.block))) s

end Sys2Proof.Machine
end

