-- ==== Sys2Proof/Machine/Stream.lean ====
section
/-! DEFINITION. StreamCipher commands: SINIT, SENC, SDEC, and the document's whole-payload functions they compose to
(41_stream.md). -/

namespace Sys2Proof.Machine

/-- SINIT (41_stream.md R131). -/
def execSinit (s : State) : Host.Outcome State Fault Refusal := completeWith (.ok s.block.startPass) s

/-- The rule of SENC L (41_stream.md R132): the feedback is the keystream's first 16 bytes. -/
def sencRule (ksg : Config.Ksg) (L : Nat) (b : Block) : Block :=
  let P := b.inBlock L
  let KS := generate ksg b.seed P b.fbop
  (b.putOut (xorBytes P KS)).advance L KS

/-- SENC (41_stream.md R132). -/
def execSenc (len : Nat) (s : State) : Host.Outcome State Fault Refusal :=
  completeWith (requireKey s.block (requireOpen s.block (.ok (sencRule Config.ksgCore (effLen len) s.block)))) s

/-- The rule of SDEC L (41_stream.md R133): the generator input is the ciphertext block, and the feedback is its first 16
bytes. -/
def sdecRule (ksg : Config.Ksg) (L : Nat) (b : Block) : Block :=
  let C := b.inBlock L
  let KS := generate ksg b.seed C b.fbop
  (b.putOut (xorBytes C KS)).advance L C

/-- SDEC (41_stream.md R133). -/
def execSdec (len : Nat) (s : State) : Host.Outcome State Fault Refusal :=
  completeWith (requireKey s.block (requireOpen s.block (.ok (sdecRule Config.ksgCore (effLen len) s.block)))) s

/-- The payload split of 41_stream.md R135: block `i` is `P[32i .. min(32i + 32, N))`. -/
def payloadBlocks (P : Bytes) : List Bytes :=
  (List.range ((P.length + 31) / 32)).map (fun i => slice P (32 * i) (min (32 * i + 32) P.length))

/-- The loop of `StreamEncrypt` over blocks (41_stream.md R135), for a generator `gen`. -/
def encryptBlocks (gen : Bytes → Option Bytes → Bytes) (fb : Option Bytes) (bs : List Bytes) : Bytes :=
  match bs with
  | [] => []
  | B :: rest => xorBytes B (gen B fb) ++ encryptBlocks gen (some (slice (gen B fb) 0 16)) rest

/-- `StreamEncrypt(P)` (41_stream.md R135). -/
def streamEncrypt (gen : Bytes → Option Bytes → Bytes) (P : Bytes) : Bytes := encryptBlocks gen none (payloadBlocks P)

/-- The loop of `StreamDecrypt` over blocks (41_stream.md R136): ciphertext feedback. -/
def decryptBlocks (gen : Bytes → Option Bytes → Bytes) (fb : Option Bytes) (bs : List Bytes) : Bytes :=
  match bs with
  | [] => []
  | B :: rest => xorBytes B (gen B fb) ++ decryptBlocks gen (some (slice B 0 16)) rest

/-- `StreamDecrypt(C)` (41_stream.md R136). -/
def streamDecrypt (gen : Bytes → Option Bytes → Bytes) (C : Bytes) : Bytes := decryptBlocks gen none (payloadBlocks C)

end Sys2Proof.Machine
end

