-- ==== Sys2Proof/Machine/Dispatch.lean ====
section
/-! DEFINITION. One arm per command: the completion of a decoded command (30_encoding.md R84, R88). -/

namespace Sys2Proof.Machine

def exec (i : Instr) (s : State) : Host.Outcome State Fault Refusal :=
  match i with
  | .nop => Sys2Proof.Machine.execNop s
  | .keyload => Sys2Proof.Machine.execKeyload s
  | .gen len => Sys2Proof.Machine.execGen len s
  | .sinit => Sys2Proof.Machine.execSinit s
  | .senc len => Sys2Proof.Machine.execSenc len s
  | .sdec len => Sys2Proof.Machine.execSdec len s
  | .encode => Sys2Proof.Machine.execEncode s
  | .decode => Sys2Proof.Machine.execDecode s
  | .add => Sys2Proof.Machine.execAdd s
  | .scale => Sys2Proof.Machine.execScale s

end Sys2Proof.Machine
end

