-- ==== Sys2Proof/Machine/Window.lean ====
section
/-! DEFINITION. The host's side: the register window (20_memory.md R50 to R60), issue (30_encoding.md R87), the polling loop
WAIT (R95), the reset event (70_reset_and_hazards.md R231), and one host step (20_memory.md R64). -/

namespace Sys2Proof.Machine

/-- The platform address of a window offset (20_memory.md R50, R61; log entry 13). -/
def windowAddress (off : BitVec 8) : Nat := Config.base + off.toNat

/-- A reserved offset: 0x70..0x7F, 0xA8..0xBF, 0xCC..0xFF (20_memory.md R56 case 2). -/
def reservedOffset (a : Nat) : Bool :=
  (0x70 ≤ a && a ≤ 0x7F) || (0xA8 ≤ a && a ≤ 0xBF) || (0xCC ≤ a)

/-- `legal(off, w)`: none of the four cases of 20_memory.md R56. -/
def legal (off : BitVec 8) (w : Nat) : Bool :=
  !((w != 8 && w != 32)
    || reservedOffset off.toNat
    || (w == 32 && off.toNat % 4 != 0)
    || (w == 8 && (0xC0 ≤ off.toNat && off.toNat ≤ 0xCB)))

/-- `busfault(off)`: an error response to the host and the host-side record; the block is unchanged (20_memory.md R57; log
entry 5). -/
def State.raiseBusfault (s : State) (off : BitVec 8) : State :=
  { s with host := { s.host with replies := .busError off :: s.host.replies, busFault := true } }

/-- The byte lanes of a write (20_memory.md R52): 8 bits are the low byte, 32 bits are big-endian. -/
def lanes (w : Nat) (v : Word) : Bytes :=
  if w = 8 then [v.extractLsb' 0 8]
  else [v.extractLsb' 24 8, v.extractLsb' 16 8, v.extractLsb' 8 8, v.extractLsb' 0 8]

/-- One byte of a host write while idle (20_memory.md R52). A KEY write also clears KEYV (10_state.md R23); BLK_OUT, ER and
IR ignore it. -/
def Block.writeByte (b : Block) (a : Nat) (x : Byte) : Block :=
  if a < 0x20 then { b with key := b.key.setIfInBounds a x, status := setBit b.status bitKeyv false }
  else if a < 0x40 then { b with blkIn := b.blkIn.setIfInBounds (a - 0x20) x }
  else if a < 0x60 then b
  else if a < 0x70 then { b with fb := b.fb.setIfInBounds (a - 0x60) x }
  else if a < 0x80 then b
  else if a < 0x88 then { b with ea := b.ea.setIfInBounds (a - 0x80) x }
  else if a < 0x90 then { b with eb := b.eb.setIfInBounds (a - 0x88) x }
  else if a < 0x98 then b
  else if a < 0xA0 then { b with iv := b.iv.setIfInBounds (a - 0x98) x }
  else b

/-- Bytes written at consecutive offsets (20_memory.md R52). -/
def Block.writeBytes (b : Block) (a : Nat) (xs : Bytes) : Block :=
  match xs with
  | [] => b
  | x :: rest => (b.writeByte a x).writeBytes (a + 1) rest

/-- Issue: `PEND <- c`, `STATUS.BUSY <- 1` (30_encoding.md R87). -/
def Block.issue (b : Block) (c : Word) : Block := { b with pend := some c, status := setBit b.status bitBusy true }

/-- A legal host write to the block (20_memory.md R52). -/
def Block.hostWrite (b : Block) (off : BitVec 8) (w : Nat) (v : Word) : Block :=
  if off = 0xC4 then { b with status := statusAfterWrite b.status v }
  else if b.busy then b.recordFault .eBusy
  else if off = 0xC0 then b.issue v
  else if off = 0xC8 then { b with fbctl := fbctlAfterWrite b.fbctl v }
  else b.writeBytes off.toNat (lanes w v)

/-- Whether a legal write issues a command: a CMD write that finds BUSY = 0 (30_encoding.md R87). -/
def Block.issues (b : Block) (off : BitVec 8) : Bool := off == 0xC0 && !b.busy

/-- `HostWrite(off, w, v)` (20_memory.md R52). An issue also draws the command's idle steps (`LAT`, log entry 2). -/
def hostWrite (off : BitVec 8) (w : Nat) (v : Word) (s : State) : State :=
  if !legal off w then s.raiseBusfault off
  else if s.block.issues off then
    { s.withBlock (s.block.hostWrite off w v) with delay := Config.lat s.freeIdx, freeIdx := s.freeIdx + 1 }
  else s.withBlock (s.block.hostWrite off w v)

/-- Whether an offset lies in a register whose reads are draws while BUSY = 1: BLK_OUT, FB, ER, IR, FBCTL (10_state.md
R40). -/
def resultOffset (a : Nat) : Bool :=
  (0x40 ≤ a && a < 0x70) || (0x90 ≤ a && a < 0x98) || (0xA0 ≤ a && a < 0xA8) || a == 0xC8

/-- `byte(a)` of 20_memory.md R54, `d` being the value drawn if it is a draw. KEY reads 0. -/
def Block.readByte (b : Block) (d : Byte) (a : Nat) : Byte :=
  if b.busy && resultOffset a then d
  else if a < 0x20 then 0
  else if a < 0x40 then b.blkIn.toList.getD (a - 0x20) 0
  else if a < 0x60 then b.blkOut.toList.getD (a - 0x40) 0
  else if a < 0x70 then b.fb.toList.getD (a - 0x60) 0
  else if a < 0x80 then 0
  else if a < 0x88 then b.ea.toList.getD (a - 0x80) 0
  else if a < 0x90 then b.eb.toList.getD (a - 0x88) 0
  else if a < 0x98 then b.er.toList.getD (a - 0x90) 0
  else if a < 0xA0 then b.iv.toList.getD (a - 0x98) 0
  else if a < 0xA8 then b.ir.toList.getD (a - 0xA0) 0
  else 0

/-- The value of a legal read, draws taken at counter `k` and after (20_memory.md R54). A read of FBCTL while BUSY = 1 draws
all 32 bits, as R54 and 93_implementation_defined.md HW1 have it; 10_state.md R34 and HW8 have its reserved bits read as 0.
DESIGN CHOICE, log entry 7, safe: the draw allows those values too. -/
def Block.readValue (b : Block) (k : Nat) (off : BitVec 8) (w : Nat) : Word :=
  if off = 0xC0 then 0
  else if off = 0xC4 then b.status
  else if off = 0xC8 then (if b.busy then Config.drawWord k else b.fbctl)
  else if w = 8 then (b.readByte (Config.drawByte k) off.toNat).setWidth 32
  else BitVec.ofNat 32 (beUint
    [b.readByte (Config.drawByte k) off.toNat, b.readByte (Config.drawByte (k + 1)) (off.toNat + 1),
     b.readByte (Config.drawByte (k + 2)) (off.toNat + 2), b.readByte (Config.drawByte (k + 3)) (off.toNat + 3)])

/-- `name = HostRead(off, w)` (20_memory.md R54, 30_encoding.md R91). The block is unchanged; a read that draws moves the
free-value counter on, so that the next one draws afresh (93_implementation_defined.md HW1). -/
def hostRead (off : BitVec 8) (w : Nat) (name : Name) (s : State) : State :=
  if !legal off w then s.raiseBusfault off
  else
    { s with
      host := { s.host with replies := .data name w (s.block.readValue s.freeIdx off w) :: s.host.replies }
      freeIdx := if s.block.busy && resultOffset off.toNat then s.freeIdx + 4 else s.freeIdx }

/-- The reset event (70_reset_and_hazards.md R231): the block as R230 says, a pending command abandoned. The host's side
and the free-value counter are not the block's and are kept (log entry 14). -/
def resetEvent (s : State) : State := { s with block := Block.reset, delay := 0 }

/-- One input taken from the head of the list. WAIT reads STATUS into `s` and stays at the head until it reads BUSY = 0
(30_encoding.md R95; log entry 12). With no input left the host does nothing (log entry 4). -/
def hostStep (s : State) : State :=
  match s.host.inputs with
  | [] => s
  | .write off w v :: rest => hostWrite off w v (s.withInputs rest)
  | .read off w name :: rest => hostRead off w name (s.withInputs rest)
  | .wait :: rest => hostRead 0xC4 32 ['s'] (if s.block.busy then s else s.withInputs rest)
  | .reset :: rest => resetEvent (s.withInputs rest)

/-- A host step taken while the engine is idle: one of its idle steps is used up if a command is pending. -/
def hostTurn (s : State) : State := hostStep (if s.block.busy then { s with delay := s.delay - 1 } else s)

/-- The value a host program last read into a name (30_encoding.md R91); none where no read has given it one. A read that
busfaults returns no data (20_memory.md R57), and the spec does not say what its name holds then: here the name keeps its
last earlier value, if it has one. DESIGN CHOICE, log entry 21. -/
def hostVar (name : Name) (l : List Reply) : Option Word :=
  match l with
  | [] => none
  | .data n _ v :: rest => if n = name then some v else hostVar name rest
  | .busError _ :: rest => hostVar name rest

end Sys2Proof.Machine
end

