-- ==== Sys2Proof/Machine/Step.lean ====
section
/-! DEFINITION. One step of the machine: the engine's completion (30_encoding.md R88) or a host step (20_memory.md R64). -/

namespace Sys2Proof.Machine

/-- One step of the interleaving of 20_memory.md R64: the engine completes the pending command when it is its turn, else
the host takes its next access. -/
def step (s : State) : Host.Outcome State Fault Refusal :=
  match s.engineTurn with
  | some c =>
    match decode c with
    | some i => exec i s
    | none => completeIllegal s
  | none => .next (hostTurn s)

/-- The state whose very next step runs the command word `w` (its bits at and above `nbits` zero): the word is pending, as
after a CMD write (30_encoding.md R87; log entry 8). -/
def State.withFetchWord (s : State) (nbits w : Nat) : State := s.pendNow (BitVec.ofNat 32 (w % 2 ^ nbits))

end Sys2Proof.Machine
end

