-- ==== Sys2Proof/Machine/Assembler.lean ====
section
/-! DEFINITION. The host-program notation: pseudo-instructions as lists of inputs (30_encoding.md R92 to R95) and the text
of command lines and host-program lines (R90, R91). Notation only: no rule of the machine depends on it. -/

namespace Sys2Proof.Machine

/-- `ISSUE mn [n]` (30_encoding.md R92): no word is produced for a syntax error (R90). -/
def issueOf (i : Instr) : Option (List Input) := (assemble i).map (fun c => [.write 0xC0 32 c])

/-- `DO mn [n]`: ISSUE, then WAIT (30_encoding.md R93). -/
def doOf (i : Instr) : Option (List Input) := (issueOf i).map (fun l => l ++ [.wait])

/-- 32-bit writes of consecutive big-endian words at `off`, `off + 4`, ... (30_encoding.md R94). -/
def wordWrites (off : Nat) (ws : List Nat) : List Input :=
  match ws with
  | [] => []
  | x :: rest => .write (BitVec.ofNat 8 off) 32 (BitVec.ofNat 32 x) :: wordWrites (off + 4) rest

/-- `LDKEY k[0..32)` (30_encoding.md R94). -/
def ldkey (k : Vector Byte 32) : List Input :=
  wordWrites 0x00 ((List.range 8).map (fun i => beUint (slice k.toList (4 * i) (4 * i + 4))))
    ++ [.write 0xC0 32 (encode .keyload), .wait]

/-- 8-bit writes of consecutive bytes (30_encoding.md R94). -/
def byteWrites (off : Nat) (xs : Bytes) : List Input :=
  match xs with
  | [] => []
  | x :: rest => .write (BitVec.ofNat 8 off) 8 (x.setWidth 32) :: byteWrites (off + 1) rest

/-- `PUTBLK b[0..n)` with n ≤ 32 (30_encoding.md R94). -/
def putblk (xs : Bytes) : Option (List Input) := if xs.length ≤ 32 then some (byteWrites 0x20 xs) else none

/-- `PUT64 r, x`, for r one of EA (0x80), EB (0x88), IV (0x98) (30_encoding.md R94). -/
def put64 (r : Nat) (x : BitVec 64) : Option (List Input) :=
  if r = 0x80 ∨ r = 0x88 ∨ r = 0x98 then some (wordWrites r [(x.extractLsb' 32 32).toNat, (x.extractLsb' 0 32).toNat])
  else none

/-- `CLR` (30_encoding.md R94): DONE and every error bit cleared. -/
def clr : List Input := [.write 0xC4 32 0x00001F02]

/-- The text before `;` (30_encoding.md R90). -/
def stripComment (l : List Char) : List Char := l.takeWhile (fun c => c != ';')

/-- A finished token, kept unless it is empty. -/
def pushToken (cur : List Char) (out : List (List Char)) : List (List Char) :=
  if cur.isEmpty then out else cur :: out

/-- The tokens of a line: blanks separate, a comma is a token of its own (log entry 17). -/
def tokens (cur : List Char) (l : List Char) : List (List Char) :=
  match l with
  | [] => pushToken cur []
  | c :: rest =>
    if c = ' ' ∨ c = '\t' then pushToken cur (tokens [] rest)
    else if c = ',' then pushToken cur ([','] :: tokens [] rest)
    else tokens (cur ++ [c]) rest

/-- The value of a digit in a base up to 16. -/
def digit (base : Nat) (c : Char) : Option Nat :=
  let n := c.toNat
  let d := if 48 ≤ n ∧ n ≤ 57 then n - 48
    else if 65 ≤ n ∧ n ≤ 70 then n - 55
    else if 97 ≤ n ∧ n ≤ 102 then n - 87
    else 16
  if d < base then some d else none

/-- A string of digits read on from a value. -/
def digits (base acc : Nat) (l : List Char) : Option Nat :=
  match l with
  | [] => some acc
  | c :: rest => (digit base c).bind (fun d => digits base (acc * base + d) rest)

/-- A decimal number (30_encoding.md R90). -/
def decimal (l : List Char) : Option Nat := if l.isEmpty then none else digits 10 0 l

/-- A hexadecimal number with `0x` (30_encoding.md R91), below `bound`. R91 does not say what a number wider than its place
means (an offset above 0xFF, data wider than the access, such as `WR8` with 0x155, of which 20_memory.md R52 would take
`v[7:0]`): here such a line is a syntax error and produces no access. DESIGN CHOICE, log entry 17, safe. -/
def hex (bound : Nat) (l : List Char) : Option Nat :=
  match l with
  | '0' :: 'x' :: c :: rest => (digits 16 0 (c :: rest)).bind (fun n => if n < bound then some n else none)
  | _ => none

/-- A command without LEN, by its mnemonic (30_encoding.md R90). -/
def plainCommand (mn : List Char) : Option Instr :=
  match mn with
  | ['N', 'O', 'P'] => some .nop
  | ['K', 'E', 'Y', 'L', 'O', 'A', 'D'] => some .keyload
  | ['S', 'I', 'N', 'I', 'T'] => some .sinit
  | ['E', 'N', 'C', 'O', 'D', 'E'] => some .encode
  | ['D', 'E', 'C', 'O', 'D', 'E'] => some .decode
  | ['A', 'D', 'D'] => some .add
  | ['S', 'C', 'A', 'L', 'E'] => some .scale
  | _ => none

/-- A command with LEN, by its mnemonic (30_encoding.md R90). -/
def lenCommand (mn : List Char) (n : Nat) : Option Instr :=
  match mn with
  | ['G', 'E', 'N'] => some (.gen n)
  | ['S', 'E', 'N', 'C'] => some (.senc n)
  | ['S', 'D', 'E', 'C'] => some (.sdec n)
  | _ => none

/-- The command of a tokenised command line: the mnemonic, then the decimal LEN for GEN, SENC and SDEC only
(30_encoding.md R90). -/
def parseCommand (l : List (List Char)) : Option Instr :=
  match l with
  | [mn] => plainCommand mn
  | [mn, n] => (decimal n).bind (lenCommand mn)
  | _ => none

/-- The word of a command line, if it has no syntax error (30_encoding.md R90). -/
def assembleLine (line : List Char) : Option Word := (parseCommand (tokens [] (stripComment line))).bind assemble

/-- A write line's access (30_encoding.md R91). -/
def writeLine (w bound : Nat) (off v : List Char) : Option (List Input) :=
  (hex 256 off).bind (fun o => (hex bound v).map (fun x => [.write (BitVec.ofNat 8 o) w (BitVec.ofNat 32 x)]))

/-- A read line's access (30_encoding.md R91). R91 does not say what may stand as `name`: here any one token is a name, a
comma, `->` or a number included. DESIGN CHOICE, log entry 17, safe. -/
def readLine (w : Nat) (off name : List Char) : Option (List Input) :=
  (hex 256 off).map (fun o => [.read (BitVec.ofNat 8 o) w name])

/-- The accesses of a host-program line (30_encoding.md R91 to R95); an empty line has none. The name of a read line is any
one token, and `->` is a token of its own: R91 is silent on both. DESIGN CHOICE, log entry 17, safe. -/
def parseLine (l : List (List Char)) : Option (List Input) :=
  match l with
  | [] => some []
  | [['W', 'R', '8'], off, [','], v] => writeLine 8 256 off v
  | [['W', 'R', '3', '2'], off, [','], v] => writeLine 32 (2 ^ 32) off v
  | [['R', 'D', '8'], off, ['-', '>'], name] => readLine 8 off name
  | [['R', 'D', '3', '2'], off, ['-', '>'], name] => readLine 32 off name
  | ['I', 'S', 'S', 'U', 'E'] :: cmd => (parseCommand cmd).bind issueOf
  | ['D', 'O'] :: cmd => (parseCommand cmd).bind doOf
  | [['C', 'L', 'R']] => some clr
  | [['W', 'A', 'I', 'T']] => some [.wait]
  | _ => none

/-- A host program: its lines' accesses in order, or `none` if a line has a syntax error (30_encoding.md R91). That one such
line refuses the whole program, and that `;` starts a comment in any line, is log entry 17. -/
def hostProgram (lines : List (List Char)) : Option (List Input) :=
  match lines with
  | [] => some []
  | l :: rest => (parseLine (tokens [] (stripComment l))).bind (fun a => (hostProgram rest).map (fun b => a ++ b))

end Sys2Proof.Machine
end

