-- ==== Sys2Proof/Safety.lean ====
section
/-! DEFINITION. What claims are stated in terms of: the invariant of the machine, and which runs record a fault. -/

namespace Sys2Proof.Machine

/-- What every reachable state of the block satisfies: BUSY = 1 exactly when PEND is held (10_state.md R38), reserved bits
of STATUS and FBCTL read 0 (R32, R34), FBLEN is at most 16 (R34, R35), and IR holds a value in
-1..18446744073709551 (R30). -/
structure Block.Inv (b : Block) : Prop where
  busy_iff_pend : b.busy = b.pend.isSome
  status_reserved : b.status &&& statusReserved = 0
  fbctl_reserved : b.fbctl &&& ~~~fbctlFields = 0
  fblen_le : b.fblen ≤ 16
  ir_range : -1 ≤ b.resI ∧ b.resI ≤ 18446744073709551

/-- The invariant of the machine. -/
def State.Inv (s : State) : Prop := s.block.Inv

/-- Some error bit of STATUS is set (60_exceptions.md R200). -/
def Block.errorRecorded (b : Block) : Bool := b.status &&& 0x00001F00#32 != 0

/-- A fault stands recorded: an error bit (60_exceptions.md R210) or a busfault (20_memory.md R57). -/
def State.faultRecorded (s : State) : Bool := s.block.errorRecorded || s.host.busFault

end Sys2Proof.Machine
end

