-- ==== Sys2Proof/Certificates/Slice0/Obligations.lean ====
section
/-! DEFINITION. The statements for the provers, one `def Obligations.<Name> : Prop` each, and the few words they are said
in. A statement that gives a next state writes it as an update of the old one, so what is not named is unchanged: that is
its frame. Values are said bit by bit or as the integer a register reads as, not through the model's own updates. -/

namespace Sys2Proof.Claims

open Sys2Proof.Machine

/-- STATUS `st'` is STATUS `st` with the listed bits set and cleared, every other bit unchanged. -/
def bitsAre (st st' : Word) (set clear : List Nat) : Prop :=
  ∀ k, k < 32 → st'.getLsbD k = if k ∈ set then true else if k ∈ clear then false else st.getLsbD k

/-- FBCTL `w'` holds FBV and FBLEN as given, its reserved bits as in `w` (10_state.md R34). -/
def fbctlIs (w w' : Word) (fbv : Bool) (fblen : Nat) : Prop :=
  w'.getLsbD 0 = fbv ∧ (w'.extractLsb' 8 5).toNat = fblen
    ∧ ∀ k, k < 32 → k ≠ 0 → (k < 8 ∨ 12 < k) → w'.getLsbD k = w.getLsbD k

/-- The outcome of a completion that changes nothing but the listed STATUS bits: they are set, BUSY is cleared, PEND is
dropped. -/
def onlyStatus (s : State) (o : Host.Outcome State Fault Refusal) (set : List Nat) : Prop :=
  ∃ st, o = .next { s with block := { s.block with status := st, pend := none } } ∧ bitsAre s.block.status st set [0]

/-- The engine completes the command word `c` in the next step. -/
def completes (s : State) (c : Word) : Prop :=
  s.block.busy = true ∧ s.block.pend = some c ∧ (s.delay = 0 ∨ s.host.inputs = [])

/-- The host takes input `i` in the next step, `rest` remaining. -/
def hostTakes (s : State) (i : Input) (rest : List Input) : Prop :=
  s.host.inputs = i :: rest ∧ (s.block.busy = false ∨ 0 < s.delay)

/-- The state after the host took an input, before what the input does: the input is gone, and one of the engine's idle
steps is used up if a command is pending. -/
def afterInput (s : State) (rest : List Input) : State :=
  { s with
    host := { s.host with inputs := rest }
    delay := if s.block.busy then s.delay - 1 else s.delay }

/-- The completion of an ILLEGAL word: E_ILL and DONE, nothing else (60_exceptions.md R201). -/
def illegalCompletes (c : Word) : Prop := ∀ s, completes s c → onlyStatus s (step s) [1, 8]

/-- The words of a command without LEN: exactly one word is the command, every other word with its opcode is ILLEGAL. -/
def oneWord (op : BitVec 8) (word : Word) (i : Instr) : Prop :=
  encode i = word ∧
  ∀ c : Word, c.extractLsb' 0 8 = op → (c = word → decode c = some i) ∧ (c ≠ word → decode c = none ∧ illegalCompletes c)

/-- The words of a command with LEN: RSV = 0 and LEN = c[13:8], kept raw by the model's choice (log entry 10); with RSV ≠ 0
the word is ILLEGAL. -/
def lenWords (op : BitVec 8) (i : Nat → Instr) : Prop :=
  (∀ n, n ≤ 63 → encode (i n) = BitVec.ofNat 32 (n * 256 + op.toNat)) ∧
  ∀ c : Word, c.extractLsb' 0 8 = op →
    (c.extractLsb' 14 18 = 0 → decode c = some (i (c.extractLsb' 8 6).toNat))
      ∧ (c.extractLsb' 14 18 ≠ 0 → decode c = none ∧ illegalCompletes c)

/-- A device pass of stream steps: for each block, the host puts it into BLK_IN[0..|B|) (the other bytes stay), the
command `i |B|` completes, and the host reads BLK_OUT[0..|B|). -/
def devicePass (i : Nat → Instr) (bs : List Bytes) (s : State) : Option (State × Bytes) :=
  match bs with
  | [] => some (s, [])
  | B :: rest =>
    match exec (i B.length) (s.withBlock (s.block.writeBytes 0x20 B)) with
    | .next t =>
      match devicePass i rest t with
      | some (u, out) => some (u, t.block.blkOut.toList.take B.length ++ out)
      | none => none
    | _ => none

/-- The generator of the loaded key (40_keystream.md R105). -/
def keyGen (b : Block) (B : Bytes) (F : Option Bytes) : Bytes := generate Config.ksgCore b.seed B F

/-- The host copies ER into EA between two commands (a pair of 32-bit writes in a program). -/
def copyErToEa (s : State) : State := { s with block := { s.block with ea := s.block.er } }

/-- A result register of the block the host writes nothing into. -/
def readOnlyOffset (a : Nat) : Prop := (0x40 ≤ a ∧ a < 0x60) ∨ (0x90 ≤ a ∧ a < 0x98) ∨ (0xA0 ≤ a ∧ a < 0xA8)

/-- A byte of a register the host both reads and writes: BLK_IN, FB, EA, EB, IV. -/
def readWriteOffset (a : Nat) : Prop :=
  (0x20 ≤ a ∧ a < 0x40) ∨ (0x60 ≤ a ∧ a < 0x70) ∨ (0x80 ≤ a ∧ a < 0x90) ∨ (0x98 ≤ a ∧ a < 0xA0)

/-- The registers the host reads bytes of: first offset, contents, and whether a read is a draw while BUSY = 1 (10_state.md
R22, R40). -/
def readableRegisters (b : Block) : List (Nat × Bytes × Bool) :=
  [(0x20, b.blkIn.toList, false), (0x40, b.blkOut.toList, true), (0x60, b.fb.toList, true), (0x80, b.ea.toList, false),
   (0x88, b.eb.toList, false), (0x90, b.er.toList, true), (0x98, b.iv.toList, false), (0xA0, b.ir.toList, true)]

/-- The exact integer result of ENCODE, ADD and SCALE (42_encoder.md R163, R165, R166); 0 for a command that has none. -/
def exactResult (i : Instr) (b : Block) : Int :=
  match i with
  | .nop => 0
  | .keyload => 0
  | .gen _ => 0
  | .sinit => 0
  | .senc _ => 0
  | .sdec _ => 0
  | .encode => beSint64 b.iv.toList * 1000 + (beUint (b.key.toList.take 4) % 1000 : Nat)
  | .decode => 0
  | .add => (beUint b.ea.toList : Int) + beUint b.eb.toList
  | .scale => (beUint b.ea.toList : Int) * beSint64 b.iv.toList

/-- The command's exact result is outside 0..2^64-1 (60_exceptions.md R204). -/
def overflows (i : Instr) (b : Block) : Prop := exactResult i b < 0 ∨ 2 ^ 64 - 1 < exactResult i b

/-- The commands that need a key (30_encoding.md R88). -/
def keyCommand (i : Instr) : Prop := (∃ n, i = .gen n ∨ i = .senc n ∨ i = .sdec n) ∨ i = .encode ∨ i = .decode

/-- The stream steps. -/
def streamCommand (i : Instr) : Prop := ∃ n, i = .senc n ∨ i = .sdec n

/-- The block `s` with other key bytes. -/
def withKey (s : State) (k : Vector Byte 32) : State := { s with block := { s.block with key := k } }

end Sys2Proof.Claims

open Sys2Proof Sys2Proof.Machine Sys2Proof.Claims

/-! ## Encoding -/

/-- Derived from 30_encoding.md R82, R84, R90: no bit of an encoding is dropped. For LEN 33..63 this is the model's choice,
log entry 10: its decoder keeps LEN = c[13:8] raw, so that decoding can be inverted, where R85's returns min(LEN, 32). -/
def Obligations.DecodeOfEncodeIsIdentity : Prop := ∀ i : Instr, i.wf = true → decode (encode i) = some i

/-- Derived from 30_encoding.md R82, R84, R90: a word that decodes is the encoding of a command a line can produce. That
words with LEN 32..63, which have one effect (R83), decode to different commands is the model's choice, log entry 10: its
decoder keeps LEN = c[13:8] raw, where R85's returns min(LEN, 32). -/
def Obligations.DecodedWordIsItsEncoding : Prop :=
  ∀ (c : Word) (i : Instr), decode c = some i → i.wf = true ∧ encode i = c

/-- 30_encoding.md R85: `decode` answers the command of the one row whose match and mask the word meets, and `none`
exactly on the three kinds of ILLEGAL words, whose completion records E_ILL. That the decoded command carries LEN = c[13:8]
as it stands, where R85 returns min(LEN, 32), is the model's choice, log entry 10; the meanings take min(LEN, 32) (R83). -/
def Obligations.DecodeFollowsMatchAndMask : Prop :=
  ∀ c : Word,
    (∀ r ∈ rows, c &&& r.mask = r.matchWord → decode c = some (r.build (c.extractLsb' 8 6).toNat))
    ∧ ((∀ r ∈ rows, c &&& r.mask ≠ r.matchWord) → decode c = none)
    ∧ (decode c = none ↔
        (c.extractLsb' 0 8 ∈ [0x06#8, 0x07#8] ∨ 0x0C#8 ≤ c.extractLsb' 0 8)
        ∨ c.extractLsb' 14 18 ≠ 0
        ∨ (c.extractLsb' 8 6 ≠ 0
            ∧ c.extractLsb' 0 8 ∈ [0x00#8, 0x01#8, 0x03#8, 0x08#8, 0x09#8, 0x0A#8, 0x0B#8]))
    ∧ (decode c = none → illegalCompletes c)
    ∧ effLen (c.extractLsb' 8 6).toNat = min (c.extractLsb' 8 6).toNat 32

/-- Words of 95_test_vectors.md 2.2 and 30_encoding.md R84, written out. The decoded LEN is the raw one (log entry 10). -/
def Obligations.SpecWordsDecodeAsListed : Prop :=
  decode 0x00000000 = some .nop ∧ decode 0x00000001 = some .keyload ∧ decode 0x00000302 = some (.gen 3)
    ∧ decode 0x00003F02 = some (.gen 63) ∧ decode 0x00000003 = some .sinit ∧ decode 0x00002004 = some (.senc 32)
    ∧ decode 0x00000805 = some (.sdec 8) ∧ decode 0x00000008 = some .encode ∧ decode 0x00000009 = some .decode
    ∧ decode 0x0000000A = some .add ∧ decode 0x0000000B = some .scale
    ∧ decode 0x00000101 = none ∧ decode 0x00004004 = none ∧ decode 0x80000008 = none ∧ decode 0x0000000C = none

/-- 30_encoding.md R83: LEN above 32 acts as 32, in each of the three commands; L = 0 is legal and gives an empty output. -/
def Obligations.EffectiveLengthIsMinOfLenAnd32 : Prop :=
  (∀ n s, exec (.gen n) s = exec (.gen (min n 32)) s ∧ exec (.senc n) s = exec (.senc (min n 32)) s
      ∧ exec (.sdec n) s = exec (.sdec (min n 32)) s)
  ∧ ∀ (i : Nat → Instr) (s : State), i = .gen ∨ i = .senc ∨ i = .sdec → s.block.keyv = true → s.block.sclosed = false →
      ∃ t, exec (i 0) s = .next t ∧ t.block.blkOut.toList = List.replicate 32 0

/-- 30_encoding.md R90: a word is produced exactly when LEN is in 0..63, and it is `match(mn) OR (n << 8)`. -/
def Obligations.AssembleProducesWordExactlyForLegalLen : Prop :=
  ∀ (n : Nat),
    assemble (.gen n) = (if n ≤ 63 then some (0x00000002#32 ||| (BitVec.ofNat 32 n <<< 8)) else none)
    ∧ assemble (.senc n) = (if n ≤ 63 then some (0x00000004#32 ||| (BitVec.ofNat 32 n <<< 8)) else none)
    ∧ assemble (.sdec n) = (if n ≤ 63 then some (0x00000005#32 ||| (BitVec.ofNat 32 n <<< 8)) else none)
    ∧ assemble .nop = some 0x00000000 ∧ assemble .keyload = some 0x00000001 ∧ assemble .sinit = some 0x00000003
    ∧ assemble .encode = some 0x00000008 ∧ assemble .decode = some 0x00000009 ∧ assemble .add = some 0x0000000A
    ∧ assemble .scale = some 0x0000000B

/-! ## One step -/

/-- 30_encoding.md R88: the engine's step on a decoded word is `exec` of its command, with nothing around it. -/
def Obligations.StepRunsDecodedCommand : Prop :=
  ∀ (s : State) (c : Word) (i : Instr), completes s c → decode c = some i → step s = exec i s

/-- 60_exceptions.md R201. -/
def Obligations.IllegalWordRecordsOnlyEIll : Prop :=
  ∀ (s : State) (c : Word), completes s c →
    ((c.extractLsb' 0 8 ∈ [0x06#8, 0x07#8] ∨ 0x0C#8 ≤ c.extractLsb' 0 8)
      ∨ c.extractLsb' 14 18 ≠ 0
      ∨ (c.extractLsb' 8 6 ≠ 0
          ∧ c.extractLsb' 0 8 ∈ [0x00#8, 0x01#8, 0x03#8, 0x08#8, 0x09#8, 0x0A#8, 0x0B#8])) →
    onlyStatus s (step s) [1, 8]

/-- 60_exceptions.md R209: nothing stops the machine. -/
def Obligations.EveryStepAnswersNextState : Prop := ∀ s : State, ∃ t, step s = .next t

/-- 10_state.md R30, R32, R34, R35, R38: the invariant of Safety.lean is kept by every step from every state that has it. -/
def Obligations.StepKeepsInvariant : Prop := ∀ s t : State, s.Inv → step s = .next t → t.Inv

/-- The invariant holds after reset. -/
def Obligations.ResetSatisfiesInvariant : Prop := State.reset.Inv

/-- 70_reset_and_hazards.md R230: what reset leaves. (The model's own fields are no part of the rule.) -/
def Obligations.ResetLeavesEveryRegisterZero : Prop :=
  let b := State.reset.block
  b.key.toList = List.replicate 32 0 ∧ b.blkIn.toList = List.replicate 32 0 ∧ b.blkOut.toList = List.replicate 32 0
    ∧ b.fb.toList = List.replicate 16 0 ∧ b.ea.toList = List.replicate 8 0 ∧ b.eb.toList = List.replicate 8 0
    ∧ b.er.toList = List.replicate 8 0 ∧ b.iv.toList = List.replicate 8 0 ∧ b.ir.toList = List.replicate 8 0
    ∧ b.status = 0x00000000 ∧ b.fbctl = 0x00000000 ∧ b.pend = none

/-- 70_reset_and_hazards.md R231: a reset, also while BUSY = 1, abandons the pending command; afterwards the block is as
after power-up. That the host's side, which is not the block's, is kept is the model's choice, log entry 14. -/
def Obligations.ResetEventAbandonsPendingCommand : Prop :=
  ∀ (s : State) (rest : List Input), hostTakes s .reset rest →
    ∃ t, step s = .next t ∧ t.block = State.reset.block ∧ t.host = { s.host with inputs := rest }

/-- 70_reset_and_hazards.md R243, in the model's form (log entries 2 and 3): from every state with a command pending the
engine is free again after at most `delay + 1` steps. -/
def Obligations.PendingCommandCompletesInBoundedSteps : Prop :=
  ∀ s : State, s.block.busy = true → s.block.pend.isSome = true →
    ∃ k, k ≤ s.delay + 1 ∧ ∃ t, core.run k s = .next t ∧ t.block.busy = false

/-- 20_memory.md R64 item 4, 70_reset_and_hazards.md R234: while BUSY = 1, a host step other than a reset changes nothing
of the block but DONE and error bits of STATUS; BUSY stays 1. -/
def Obligations.HostStepsLeaveBusyBlockFixed : Prop :=
  ∀ (s : State) (i : Input) (rest : List Input), hostTakes s i rest → i ≠ .reset → s.block.busy = true →
    ∃ t st, step s = .next t ∧ t.block = { s.block with status := st }
      ∧ ∀ k, k < 32 → k ∉ [1, 8, 9, 10, 11, 12] → st.getLsbD k = s.block.status.getLsbD k

/-! ## Whole-machine rules about STATUS and FBCTL bits -/

/-- 10_state.md R39, row KEYV: set by the completion of KEYLOAD only, cleared by a legal KEY write or a reset only. -/
def Obligations.KeyvSetByKeyloadClearedByKeyWriteOrReset : Prop :=
  ∀ s t : State, step s = .next t →
    (s.block.keyv = false → t.block.keyv = true → completes s 0x00000001)
    ∧ (s.block.keyv = true → t.block.keyv = false →
        (s.block.busy = false ∧ ∃ off w v rest,
          off < 0x20#8 ∧ legal off w = true ∧ s.host.inputs = .write off w v :: rest)
        ∨ ∃ rest, s.host.inputs = .reset :: rest)

/-- 10_state.md R39, row SCLOSED: set by SENC or SDEC with L < 32 only, cleared by KEYLOAD, SINIT or a reset only. -/
def Obligations.SclosedSetByShortBlockClearedByPassStart : Prop :=
  ∀ s t : State, step s = .next t →
    (s.block.sclosed = false → t.block.sclosed = true →
        ∃ c n, completes s c ∧ n < 32 ∧ (decode c = some (.senc n) ∨ decode c = some (.sdec n)))
    ∧ (s.block.sclosed = true → t.block.sclosed = false →
        completes s 0x00000001 ∨ completes s 0x00000003 ∨ ∃ rest, s.host.inputs = .reset :: rest)

/-- 10_state.md R39, rows BUSY and DONE: BUSY is set by a CMD write while idle only and cleared by a completion or a reset
only; every completion sets DONE and only a STATUS write of 1 to it or a reset clears it. -/
def Obligations.BusyAndDoneFollowIssueAndCompletion : Prop :=
  ∀ s t : State, step s = .next t →
    (s.block.busy = false → t.block.busy = true →
        ∃ c rest, s.host.inputs = .write 0xC0 32 c :: rest ∧ t.block.pend = some c)
    ∧ (s.block.busy = true → t.block.busy = false →
        (∃ c, completes s c) ∨ ∃ rest, s.host.inputs = .reset :: rest)
    ∧ ((∃ c, completes s c) → t.block.done = true ∧ t.block.busy = false ∧ t.block.pend = none)
    ∧ (s.block.done = false → t.block.done = true → ∃ c, completes s c)
    ∧ (s.block.done = true → t.block.done = false →
        ∃ rest, s.host.inputs = .reset :: rest ∨ ∃ w, s.host.inputs = .write 0xC4 32 w :: rest ∧ w.getLsbD 1 = true)

/-- 10_state.md R39, rows FBV and FBLEN: FBCTL is changed by SENC or SDEC with L = 32, by KEYLOAD, SINIT, an FBCTL write
while idle, or a reset only. -/
def Obligations.FbctlWrittenOnlyByListedEvents : Prop :=
  ∀ s t : State, step s = .next t → t.block.fbctl ≠ s.block.fbctl →
    (∃ c n, completes s c ∧ 32 ≤ n ∧ (decode c = some (.senc n) ∨ decode c = some (.sdec n)))
    ∨ completes s 0x00000001 ∨ completes s 0x00000003
    ∨ (s.block.busy = false ∧ ∃ w rest, s.host.inputs = .write 0xC8 32 w :: rest)
    ∨ ∃ rest, s.host.inputs = .reset :: rest

/-! ## The register window -/

/-- 20_memory.md R51: which accesses the window accepts; every other access is a busfault. -/
def Obligations.LegalAccessesAreThoseOfTheRegisterMap : Prop :=
  ∀ (off : BitVec 8) (w : Nat),
    legal off w = true ↔
      (w = 8 ∧ (off.toNat < 0x70 ∨ (0x80 ≤ off.toNat ∧ off.toNat < 0xA8)))
      ∨ (w = 32 ∧ off.toNat % 4 = 0 ∧ (off.toNat < 0x70 ∨ (0x80 ≤ off.toNat ∧ off.toNat < 0xA8)))
      ∨ (w = 32 ∧ (off = 0xC0 ∨ off = 0xC4 ∨ off = 0xC8))

/-- 20_memory.md R57: a busfault answers an error and no data, changes nothing of the block, and is recorded for the rest of
the run, a reset included. -/
def Obligations.BusfaultChangesNoBlockStateAndStaysRecorded : Prop :=
  (∀ (s : State) (i : Input) (rest : List Input) (off : BitVec 8) (w : Nat), hostTakes s i rest → legal off w = false →
      ((∃ v, i = .write off w v) ∨ ∃ name, i = .read off w name) →
      step s = .next { afterInput s rest with
        host := { inputs := rest, replies := .busError off :: s.host.replies, busFault := true } })
  ∧ ∀ s t : State, step s = .next t → s.host.busFault = true → t.host.busFault = true

/-- 10_state.md R33: a STATUS write, also while BUSY = 1, clears the bits DONE and E_* that are 1 in the word, and nothing
else changes; an error bit that any step clears was cleared by such a write or by a reset. -/
def Obligations.StatusWriteClearsWrittenOnesAndErrorsAreSticky : Prop :=
  (∀ (s : State) (w : Word) (rest : List Input), hostTakes s (.write 0xC4 32 w) rest →
    ∃ st, step s = .next { afterInput s rest with block := { s.block with status := st } }
      ∧ ∀ k, k < 32 → st.getLsbD k =
          (if k ∈ [1, 8, 9, 10, 11, 12] ∧ w.getLsbD k = true then false else s.block.status.getLsbD k))
  ∧ ∀ (s t : State) (k : Nat), step s = .next t → 8 ≤ k → k ≤ 12 →
    s.block.status.getLsbD k = true → t.block.status.getLsbD k = false →
    ∃ rest, s.host.inputs = .reset :: rest ∨ ∃ w, s.host.inputs = .write 0xC4 32 w :: rest ∧ w.getLsbD k = true

/-- 10_state.md R35: FBV <- w[0], FBLEN <- min(w[12:8], 16), nothing else. -/
def Obligations.FbctlWriteClampsFblenTo16 : Prop :=
  ∀ (s : State) (w : Word) (rest : List Input), hostTakes s (.write 0xC8 32 w) rest → s.block.busy = false →
    ∃ fc, step s = .next { afterInput s rest with block := { s.block with fbctl := fc } }
      ∧ fbctlIs s.block.fbctl fc (w.getLsbD 0) (min (w.extractLsb' 8 5).toNat 16)

/-- 30_encoding.md R87: issue while idle; a CMD write while BUSY = 1 is ignored and sets E_BUSY. -/
def Obligations.CmdWriteIssuesWhenIdleAndIsIgnoredWhenBusy : Prop :=
  ∀ (s : State) (c : Word) (rest : List Input), hostTakes s (.write 0xC0 32 c) rest →
    (s.block.busy = false → ∃ st d f,
        step s = .next { afterInput s rest with
          block := { s.block with pend := some c, status := st }, delay := d, freeIdx := f }
        ∧ bitsAre s.block.status st [0] [])
    ∧ (s.block.busy = true → ∃ st,
        step s = .next { afterInput s rest with block := { s.block with status := st } }
        ∧ bitsAre s.block.status st [12] [])

/-- 60_exceptions.md R205: a legal host write to any other offset than STATUS while BUSY = 1 sets E_BUSY and nothing else:
the pending command is untouched. -/
def Obligations.BusyWriteOnlySetsEBusy : Prop :=
  ∀ (s : State) (off : BitVec 8) (w : Nat) (v : Word) (rest : List Input),
    hostTakes s (.write off w v) rest → legal off w = true → off ≠ 0xC4 → s.block.busy = true →
    ∃ st, step s = .next { afterInput s rest with block := { s.block with status := st } }
      ∧ bitsAre s.block.status st [12] []

/-- 10_state.md R23, 70_reset_and_hazards.md R237: a KEY write, of either width, stores its bytes big-endian and clears
KEYV, whatever the bytes; a read of KEY, of either width, answers 0 in every state. -/
def Obligations.KeyWriteStoresAndClearsKeyvAndReadsZero : Prop :=
  (∀ (s : State) (off : BitVec 8) (w : Nat) (v : Word) (rest : List Input),
      hostTakes s (.write off w v) rest → legal off w = true → off.toNat < 32 → s.block.busy = false →
      ∃ (key' : Vector Byte 32) (st : Word),
        step s = .next { afterInput s rest with block := { s.block with key := key', status := st } }
        ∧ bitsAre s.block.status st [] [2]
        ∧ ∀ (j : Nat) (h : j < 32), key'[j] =
            if off.toNat ≤ j ∧ j < off.toNat + w / 8 then
              BitVec.ofNat 8 (v.toNat / 256 ^ (off.toNat + w / 8 - 1 - j))
            else s.block.key[j])
  ∧ ∀ (b : Block) (k : Nat) (off : BitVec 8) (w : Nat), off.toNat < 32 → legal off w = true → b.readValue k off w = 0

/-- 20_memory.md R52, R54, R58: after a step that takes a write to BLK_IN, FB, EA, EB or IV while idle, a read at the offset
and width of the write returns what was written. -/
def Obligations.ReadAfterWriteReturnsWrittenValue : Prop :=
  ∀ (s : State) (off : BitVec 8) (w : Nat) (v : Word) (rest : List Input),
    hostTakes s (.write off w v) rest → legal off w = true → readWriteOffset off.toNat → s.block.busy = false →
    ∃ t, step s = .next t ∧ t.block.busy = false
      ∧ ∀ k, t.block.readValue k off w = if w = 8 then (v.extractLsb' 0 8).setWidth 32 else v

/-- 20_memory.md R52: a step that takes a write to a byte register while idle changes the block and takes the input, nothing
else; every byte outside the written ones reads as before through the window; FBCTL, PEND and the result registers are as
before; and a write to a register other than KEY leaves KEY and STATUS as they were. (The bytes of KEY, which do not read
back, are said in `KeyWriteStoresAndClearsKeyvAndReadsZero`.) -/
def Obligations.WriteLeavesOtherBytesUnchanged : Prop :=
  ∀ (s : State) (off : BitVec 8) (w : Nat) (v : Word) (rest : List Input),
    hostTakes s (.write off w v) rest → legal off w = true → off.toNat < 0xC0 → s.block.busy = false →
    ∃ b', step s = .next { afterInput s rest with block := b' }
      ∧ (∀ (off' : BitVec 8) (k : Nat), off'.toNat < 0xC0 → (off'.toNat < off.toNat ∨ off.toNat + w / 8 ≤ off'.toNat) →
          b'.readValue k off' 8 = s.block.readValue k off' 8)
      ∧ b'.fbctl = s.block.fbctl ∧ b'.pend = s.block.pend ∧ b'.blkOut = s.block.blkOut ∧ b'.er = s.block.er
      ∧ b'.ir = s.block.ir ∧ (0x20 ≤ off.toNat → b'.key = s.block.key ∧ b'.status = s.block.status)

/-- 10_state.md R25, R28, R30: host writes to BLK_OUT, ER and IR are ignored and raise no error. -/
def Obligations.ResultRegistersIgnoreHostWrites : Prop :=
  ∀ (s : State) (off : BitVec 8) (w : Nat) (v : Word) (rest : List Input),
    hostTakes s (.write off w v) rest → legal off w = true → readOnlyOffset off.toNat → s.block.busy = false →
    step s = .next (afterInput s rest)

/-- 20_memory.md R55, R54: a read changes nothing of the block; a legal one answers the register's value on the host's bus
and moves nothing but the model's own counter; two reads of one register with the block unchanged and idle answer the same,
wherever that counter stands. -/
def Obligations.ReadsHaveNoSideEffectOnTheBlock : Prop :=
  (∀ (s : State) (off : BitVec 8) (w : Nat) (name : Name) (rest : List Input), hostTakes s (.read off w name) rest →
      (∃ t, step s = .next t ∧ t.block = s.block)
      ∧ (legal off w = true → ∃ f, step s = .next { afterInput s rest with
          host := { s.host with
            inputs := rest, replies := .data name w (s.block.readValue s.freeIdx off w) :: s.host.replies }
          freeIdx := f }))
  ∧ ∀ (b : Block) (off : BitVec 8) (w k k' : Nat), (b.busy = false ∨ resultOffset off.toNat = false) →
      legal off w = true → b.readValue k off w = b.readValue k' off w

/-- 20_memory.md R54 (10_state.md R22, R23, R31, R40): what a step that takes a legal read answers. CMD and KEY read 0,
STATUS as it is, FBCTL as it is while idle; a byte register answers its bytes, big-endian: BLK_IN, EA, EB and IV always,
BLK_OUT, FB, ER and IR while idle. -/
def Obligations.ReadAnswersContentsOfTheRegister : Prop :=
  ∀ (s : State) (off : BitVec 8) (w : Nat) (name : Name) (rest : List Input),
    hostTakes s (.read off w name) rest → legal off w = true →
    ∃ t v, step s = .next t ∧ t.block = s.block ∧ t.host.replies = .data name w v :: s.host.replies
      ∧ (off = 0xC0 → v = 0)
      ∧ (off.toNat < 0x20 → v = 0)
      ∧ (off = 0xC4 → v = s.block.status)
      ∧ (off = 0xC8 → s.block.busy = false → v = s.block.fbctl)
      ∧ ∀ (a : Nat) (S : Bytes) (draws : Bool), (a, S, draws) ∈ readableRegisters s.block →
          a ≤ off.toNat → off.toNat < a + S.length → (draws = false ∨ s.block.busy = false) →
          v.toNat = beUint ((S.drop (off.toNat - a)).take (w / 8))

/-- 60_exceptions.md R212, 10_state.md R23: in one step, from any state, nothing the host's bus answers depends on KEY: two
machines that differ in KEY only give the host's side the same. -/
def Obligations.NoHostReadRevealsTheKey : Prop :=
  ∀ (s t t' : State) (key' : Vector Byte 32), step s = .next t → step (withKey s key') = .next t' → t'.host = t.host

/-- 20_memory.md R58: a 32-bit read at offset r + 4i of an 8-byte register r (EA, EB, ER, IV, IR), idle. -/
def Obligations.WordReadOfScalarRegisterIsItsHalf : Prop :=
  ∀ (b : Block) (k i : Nat), b.busy = false → i < 2 →
    (b.readValue k (BitVec.ofNat 8 (0x80 + 4 * i)) 32).toNat = (beUint b.ea.toList >>> (32 * (1 - i))) % 2 ^ 32
    ∧ (b.readValue k (BitVec.ofNat 8 (0x88 + 4 * i)) 32).toNat = (beUint b.eb.toList >>> (32 * (1 - i))) % 2 ^ 32
    ∧ (b.readValue k (BitVec.ofNat 8 (0x90 + 4 * i)) 32).toNat = (beUint b.er.toList >>> (32 * (1 - i))) % 2 ^ 32
    ∧ (b.readValue k (BitVec.ofNat 8 (0x98 + 4 * i)) 32).toNat = (beUint b.iv.toList >>> (32 * (1 - i))) % 2 ^ 32
    ∧ (b.readValue k (BitVec.ofNat 8 (0xA0 + 4 * i)) 32).toNat = (beUint b.ir.toList >>> (32 * (1 - i))) % 2 ^ 32

/-- 30_encoding.md R95 (and log entry 12): WAIT reads STATUS into `s` and is left exactly when the value read has BUSY = 0. -/
def Obligations.WaitEndsExactlyWhenBusyReadsZero : Prop :=
  ∀ (s : State) (rest : List Input), hostTakes s .wait rest →
    ∃ t, step s = .next t ∧ t.block = s.block
      ∧ t.host.replies = .data ['s'] 32 s.block.status :: s.host.replies
      ∧ t.host.inputs = (if s.block.status.getLsbD 0 = true then s.host.inputs else rest)

/-! ## The commands -/

/-- 43_control.md R190: NOP sets DONE and changes nothing else; a 0 written to CMD while BUSY = 1 sets E_BUSY instead. -/
def Obligations.NopOnlySetsDone : Prop :=
  oneWord 0x00 0x00000000 .nop ∧ (∀ s : State, onlyStatus s (exec .nop s) [1])
  ∧ ∀ (s : State) (rest : List Input), hostTakes s (.write 0xC0 32 0) rest → s.block.busy = true →
      ∃ st, step s = .next { afterInput s rest with block := { s.block with status := st } }
        ∧ bitsAre s.block.status st [12] []

/-- 40_keystream.md R109: KEYV 1, SCLOSED 0, FB zeros, FBV 0, FBLEN 0, DONE; SEED and NOISE are the current KEY's. -/
def Obligations.KeyloadValidatesKeyAndRestartsPass : Prop :=
  oneWord 0x01 0x00000001 .keyload ∧
  ∀ s : State, ∃ st fb fc,
    exec .keyload s = .next { s with block := { s.block with fb := fb, fbctl := fc, status := st, pend := none } }
      ∧ fb.toList = List.replicate 16 0 ∧ fbctlIs s.block.fbctl fc false 0 ∧ bitsAre s.block.status st [1, 2] [0, 3]
      ∧ s.block.seed.toNat = beUint (s.block.key.toList.take 8)
      ∧ s.block.noise = beUint (s.block.key.toList.take 4) % 1000

/-- 41_stream.md R131: FB zeros, FBV 0, FBLEN 0, SCLOSED 0, DONE; no key needed. -/
def Obligations.SinitRestartsPass : Prop :=
  oneWord 0x03 0x00000003 .sinit ∧
  ∀ s : State, ∃ st fb fc,
    exec .sinit s = .next { s with block := { s.block with fb := fb, fbctl := fc, status := st, pend := none } }
      ∧ fb.toList = List.replicate 16 0 ∧ fbctlIs s.block.fbctl fc false 0 ∧ bitsAre s.block.status st [1] [0, 3]

/-- Derived from 40_keystream.md R110: BLK_OUT holds the L keystream bytes and zeros, whatever SCLOSED is, and no stream
state changes; without a key E_NOKEY. That the decoded GEN carries LEN = c[13:8] raw, where the decode of 30_encoding.md R85
returns min(LEN, 32), is the model's choice, log entry 10. -/
def Obligations.GenWritesKeystreamAndKeepsFeedback : Prop :=
  lenWords 0x02 .gen ∧
  ∀ (s : State) (len : Nat),
    let L := min len 32
    let K := keyGen s.block (s.block.blkIn.toList.take L) s.block.fbop
    (s.block.keyv = true → ∃ out st,
        exec (.gen len) s = .next { s with block := { s.block with blkOut := out, status := st, pend := none } }
          ∧ K.length = L ∧ out.toList = K ++ List.replicate (32 - L) 0 ∧ bitsAre s.block.status st [1] [0])
    ∧ (s.block.keyv = false → onlyStatus s (exec (.gen len) s) [1, 9])

/-- Derived from 41_stream.md R132: one block encrypted; a full block leaves the keystream's first 16 bytes as feedback, a short block
closes the pass; E_NOKEY before E_SEQ. That the decoded SENC carries LEN = c[13:8] raw, where the decode of 30_encoding.md
R85 returns min(LEN, 32), is the model's choice, log entry 10. -/
def Obligations.SencEncryptsOneBlock : Prop :=
  lenWords 0x04 .senc ∧
  ∀ (s : State) (len : Nat),
    let L := min len 32
    let P := s.block.blkIn.toList.take L
    let KS := keyGen s.block P s.block.fbop
    (s.block.keyv = true → s.block.sclosed = false → 32 ≤ len → ∃ out fb fc st,
        exec (.senc len) s = .next { s with
          block := { s.block with blkOut := out, fb := fb, fbctl := fc, status := st, pend := none } }
          ∧ KS.length = 32 ∧ out.toList = List.zipWith (fun p k => p ^^^ k) P KS
          ∧ fb.toList = KS.take 16 ∧ fbctlIs s.block.fbctl fc true 16 ∧ bitsAre s.block.status st [1] [0])
    ∧ (s.block.keyv = true → s.block.sclosed = false → len < 32 → ∃ out st,
        exec (.senc len) s = .next { s with block := { s.block with blkOut := out, status := st, pend := none } }
          ∧ KS.length = len ∧ out.toList = List.zipWith (fun p k => p ^^^ k) P KS ++ List.replicate (32 - len) 0
          ∧ bitsAre s.block.status st [1, 3] [0])
    ∧ (s.block.keyv = false → onlyStatus s (exec (.senc len) s) [1, 9])
    ∧ (s.block.keyv = true → s.block.sclosed = true → onlyStatus s (exec (.senc len) s) [1, 10])

/-- Derived from 41_stream.md R133: as SENC, but the generator input and the feedback are the ciphertext block. That the
decoded SDEC carries LEN = c[13:8] raw, where the decode of 30_encoding.md R85 returns min(LEN, 32), is the model's choice,
log entry 10. -/
def Obligations.SdecDecryptsOneBlock : Prop :=
  lenWords 0x05 .sdec ∧
  ∀ (s : State) (len : Nat),
    let L := min len 32
    let C := s.block.blkIn.toList.take L
    let KS := keyGen s.block C s.block.fbop
    (s.block.keyv = true → s.block.sclosed = false → 32 ≤ len → ∃ out fb fc st,
        exec (.sdec len) s = .next { s with
          block := { s.block with blkOut := out, fb := fb, fbctl := fc, status := st, pend := none } }
          ∧ KS.length = 32 ∧ out.toList = List.zipWith (fun p k => p ^^^ k) C KS
          ∧ fb.toList = C.take 16 ∧ fbctlIs s.block.fbctl fc true 16 ∧ bitsAre s.block.status st [1] [0])
    ∧ (s.block.keyv = true → s.block.sclosed = false → len < 32 → ∃ out st,
        exec (.sdec len) s = .next { s with block := { s.block with blkOut := out, status := st, pend := none } }
          ∧ KS.length = len ∧ out.toList = List.zipWith (fun p k => p ^^^ k) C KS ++ List.replicate (32 - len) 0
          ∧ bitsAre s.block.status st [1, 3] [0])
    ∧ (s.block.keyv = false → onlyStatus s (exec (.sdec len) s) [1, 9])
    ∧ (s.block.keyv = true → s.block.sclosed = true → onlyStatus s (exec (.sdec len) s) [1, 10])

/-- 42_encoder.md R163: ER reads as v * 1000 + NOISE, or E_OVF and ER unchanged; E_NOKEY without a key. -/
def Obligations.EncodeWritesScaledValuePlusNoise : Prop :=
  oneWord 0x08 0x00000008 .encode ∧
  ∀ s : State,
    let r := beSint64 s.block.iv.toList * 1000 + (beUint (s.block.key.toList.take 4) % 1000 : Nat)
    (s.block.keyv = true → 0 ≤ r → r ≤ 2 ^ 64 - 1 → ∃ er st,
        exec .encode s = .next { s with block := { s.block with er := er, status := st, pend := none } }
          ∧ (beUint er.toList : Int) = r ∧ bitsAre s.block.status st [1] [0])
    ∧ (s.block.keyv = true → (r < 0 ∨ 2 ^ 64 - 1 < r) → onlyStatus s (exec .encode s) [1, 11])
    ∧ (s.block.keyv = false → onlyStatus s (exec .encode s) [1, 9])

/-- 42_encoder.md R164: IR reads as (A - NOISE) div 1000, floor; it cannot overflow; E_NOKEY without a key. -/
def Obligations.DecodeWritesFloorQuotient : Prop :=
  oneWord 0x09 0x00000009 .decode ∧
  ∀ s : State,
    (s.block.keyv = true → ∃ ir st,
        exec .decode s = .next { s with block := { s.block with ir := ir, status := st, pend := none } }
          ∧ (1000 * beSint64 ir.toList
                ≤ (beUint s.block.ea.toList : Int) - (beUint (s.block.key.toList.take 4) % 1000 : Nat)
              ∧ (beUint s.block.ea.toList : Int) - (beUint (s.block.key.toList.take 4) % 1000 : Nat)
                < 1000 * (beSint64 ir.toList + 1))
          ∧ -1 ≤ beSint64 ir.toList ∧ beSint64 ir.toList ≤ 18446744073709551
          ∧ bitsAre s.block.status st [1] [0])
    ∧ (s.block.keyv = false → onlyStatus s (exec .decode s) [1, 9])

/-- 42_encoder.md R165: ER reads as A + B, or E_OVF and ER unchanged; no key needed. -/
def Obligations.AddWritesSumOrOverflows : Prop :=
  oneWord 0x0A 0x0000000A .add ∧
  ∀ s : State,
    let r := beUint s.block.ea.toList + beUint s.block.eb.toList
    (r ≤ 2 ^ 64 - 1 → ∃ er st,
        exec .add s = .next { s with block := { s.block with er := er, status := st, pend := none } }
          ∧ beUint er.toList = r ∧ bitsAre s.block.status st [1] [0])
    ∧ (2 ^ 64 - 1 < r → onlyStatus s (exec .add s) [1, 11])

/-- 42_encoder.md R166: ER reads as A * s with s signed, or E_OVF and ER unchanged; no key needed. -/
def Obligations.ScaleWritesProductOrOverflows : Prop :=
  oneWord 0x0B 0x0000000B .scale ∧
  ∀ s : State,
    let r := (beUint s.block.ea.toList : Int) * beSint64 s.block.iv.toList
    (0 ≤ r → r ≤ 2 ^ 64 - 1 → ∃ er st,
        exec .scale s = .next { s with block := { s.block with er := er, status := st, pend := none } }
          ∧ (beUint er.toList : Int) = r ∧ bitsAre s.block.status st [1] [0])
    ∧ ((r < 0 ∨ 2 ^ 64 - 1 < r) → onlyStatus s (exec .scale s) [1, 11])

/-! ## Errors -/

/-- 60_exceptions.md R202: the five key-dependent commands with KEYV = 0; the other five never set E_NOKEY. -/
def Obligations.KeylessKeyCommandsRecordOnlyENokey : Prop :=
  (∀ (i : Instr) (s : State), keyCommand i → s.block.keyv = false → onlyStatus s (exec i s) [1, 9])
  ∧ ∀ (i : Instr) (s t : State), ¬ keyCommand i → exec i s = .next t →
      t.block.status.getLsbD 9 = s.block.status.getLsbD 9

/-- 60_exceptions.md R208: a command that newly sets an error bit changes nothing else but DONE, BUSY and PEND. -/
def Obligations.ErringCommandHasNoOtherEffect : Prop :=
  ∀ (i : Instr) (s t : State) (k : Nat), exec i s = .next t → 8 ≤ k → k ≤ 12 →
    s.block.status.getLsbD k = false → t.block.status.getLsbD k = true →
    onlyStatus s (exec i s) [1, k]

/-- 60_exceptions.md R207, R204: exactly one error is reported, the first of E_ILL, E_NOKEY, E_SEQ, E_OVF; with none of the
first three, E_OVF is exactly when the result is out of range, and with no condition no error bit changes. -/
def Obligations.FirstErrorByPriorityIsTheOnlyOneReported : Prop :=
  ∀ (s : State) (c : Word), completes s c →
    (decode c = none → onlyStatus s (step s) [1, 8])
    ∧ ∀ i, decode c = some i →
        (keyCommand i → s.block.keyv = false → onlyStatus s (step s) [1, 9])
        ∧ (streamCommand i → s.block.keyv = true → s.block.sclosed = true → onlyStatus s (step s) [1, 10])
        ∧ (¬ (keyCommand i ∧ s.block.keyv = false) → ¬ (streamCommand i ∧ s.block.sclosed = true) →
            (overflows i s.block → onlyStatus s (step s) [1, 11])
            ∧ (¬ overflows i s.block → ∃ t, step s = .next t
                ∧ ∀ k, k ∈ [8, 9, 10, 11, 12] → t.block.status.getLsbD k = s.block.status.getLsbD k))

/-! ## Laws of the generator, the stream and the encoder -/

/-- 41_stream.md R130: the feedback operand is absent when FBV = 0, else the first FBLEN bytes of FB. -/
def Obligations.FeedbackOperandFollowsFbctl : Prop :=
  ∀ b : Block,
    (b.fbctl.getLsbD 0 = false → b.fbop = none)
    ∧ (b.fbctl.getLsbD 0 = true → ∃ F, b.fbop = some F ∧ F = b.fb.toList.take (b.fbctl.extractLsb' 8 5).toNat)

/-- 40_keystream.md R105 (R104, R107): the transform sees the block zero-padded or truncated to 32 bytes, the present
feedback to 16, and its output is truncated to min(|B|, 32) bytes. -/
def Obligations.GeneratePadsInputsAndTruncatesOutput : Prop :=
  ∀ (b : Block) (B : Bytes) (F : Option Bytes) (X : Vector Byte 32) (Fn : Option (Vector Byte 16)),
    X.toList = B.take 32 ++ List.replicate (32 - B.length) 0 →
    Fn.map (fun v => v.toList) = F.map (fun G => G.take 16 ++ List.replicate (16 - G.length) 0) →
    keyGen b B F = (Config.ksgCore b.seed X Fn).toList.take (min B.length 32)
      ∧ (keyGen b B F).length = min B.length 32

/-- 40_keystream.md R112: the prefix law. -/
def Obligations.ShorterKeystreamIsPrefixOfZeroPadded : Prop :=
  ∀ (b : Block) (B : Bytes) (F : Option Bytes) (k : Nat), B.length + k ≤ 32 →
    (keyGen b (B ++ List.replicate k 0) F).take B.length = keyGen b B F

/-- 40_keystream.md R111: GEN depends on KEY[0..8), BLK_IN[0..L), L and fbop() only. -/
def Obligations.GenOutputDependsOnItsOperandsOnly : Prop :=
  ∀ (s t s' t' : State) (len : Nat),
    s.block.key.toList.take 8 = t.block.key.toList.take 8 →
    s.block.blkIn.toList.take (min len 32) = t.block.blkIn.toList.take (min len 32) →
    s.block.fbop = t.block.fbop → s.block.keyv = true → t.block.keyv = true →
    exec (.gen len) s = .next s' → exec (.gen len) t = .next t' → s'.block.blkOut = t'.block.blkOut

/-- 40_keystream.md R108: two machines whose keys agree on their first 8 bytes make the same steps: whatever is done next,
their next states differ in KEY[8..32) only. -/
def Obligations.KeyBytesBeyondEightAffectNoStep : Prop :=
  ∀ (s t : State) (key' : Vector Byte 32), s.block.key.toList.take 8 = key'.toList.take 8 → step s = .next t →
    ∃ key'' : Vector Byte 32, step (withKey s key') = .next (withKey t key'')
      ∧ t.block.key.toList.take 8 = key''.toList.take 8

/-- 41_stream.md R135: the device pass of SENC over a payload's blocks, after SINIT and with a key, computes
`StreamEncrypt`. -/
def Obligations.SencPassComputesStreamEncrypt : Prop :=
  ∀ (s t : State) (P : Bytes), s.block.keyv = true → exec .sinit s = .next t →
    ∃ u, devicePass .senc (payloadBlocks P) t = some (u, streamEncrypt (keyGen s.block) P)

/-- 41_stream.md R136: the device pass of SDEC computes `StreamDecrypt`. -/
def Obligations.SdecPassComputesStreamDecrypt : Prop :=
  ∀ (s t : State) (C : Bytes), s.block.keyv = true → exec .sinit s = .next t →
    ∃ u, devicePass .sdec (payloadBlocks C) t = some (u, streamDecrypt (keyGen s.block) C)

/-- 41_stream.md R137: the result is as long as the payload; an empty payload has no block and an empty result. -/
def Obligations.StreamFunctionsKeepPayloadLength : Prop :=
  ∀ (b : Block) (P : Bytes),
    (streamEncrypt (keyGen b) P).length = P.length ∧ (streamDecrypt (keyGen b) P).length = P.length
      ∧ payloadBlocks [] = [] ∧ streamEncrypt (keyGen b) [] = [] ∧ (payloadBlocks P).flatten = P
      ∧ ∀ B ∈ payloadBlocks P, B.length ≤ 32

/-- 41_stream.md R139, for a block and any two feedbacks: decrypting an encrypted block gives the plaintext XOR both
keystreams, which is the plaintext exactly when the keystreams agree. -/
def Obligations.RoundTripOfABlockNeedsEqualKeystreams : Prop :=
  ∀ (b : Block) (P : Bytes) (F F' : Option Bytes), P.length ≤ 32 →
    let KS := keyGen b P F
    let C := xorBytes P KS
    let KS' := keyGen b C F'
    xorBytes C KS' = List.zipWith (fun x y => x ^^^ y) (List.zipWith (fun x y => x ^^^ y) P KS) KS'
      ∧ (xorBytes C KS' = P ↔ KS' = KS)

/-- 42_encoder.md R167: in the safe range ENCODE and then DECODE of the result gives v; outside it ENCODE records E_OVF. -/
def Obligations.EncodeThenDecodeReturnsValueInSafeRangeOnly : Prop :=
  ∀ s : State, s.block.keyv = true →
    let v := beSint64 s.block.iv.toList
    let top : Int := ((2 ^ 64 - 1 - beUint (s.block.key.toList.take 4) % 1000) / 1000 : Nat)
    (0 ≤ v → v ≤ top →
      ∃ t u, exec .encode s = .next t ∧ exec .decode (copyErToEa t) = .next u ∧ beSint64 u.block.ir.toList = v)
    ∧ ((v < 0 ∨ top < v) → onlyStatus s (exec .encode s) [1, 11])

/-- 42_encoder.md R168, k = 2: a single ADD of two encodings decodes exactly. -/
def Obligations.SumOfTwoEncodingsDecodesExactly : Prop :=
  ∀ (s : State) (v w : Nat),
    let n := beUint (s.block.key.toList.take 4) % 1000
    s.block.keyv = true → beUint s.block.ea.toList = 1000 * v + n → beUint s.block.eb.toList = 1000 * w + n →
    1000 * (v + w) + 2 * n ≤ 2 ^ 64 - 1 →
    ∃ t u, exec .add s = .next t ∧ beUint t.block.er.toList = 1000 * (v + w) + 2 * n
      ∧ exec .decode (copyErToEa t) = .next u ∧ beSint64 u.block.ir.toList = v + w

/-- 42_encoder.md R168: SCALE of an encoding by s ≥ 1 decodes with the bias ((s - 1) * n) div 1000; s = 0 decodes to -1 or,
without noise, to 0. -/
def Obligations.ScaledEncodingDecodesWithBias : Prop :=
  ∀ (s : State) (v m : Nat),
    let n := beUint (s.block.key.toList.take 4) % 1000
    s.block.keyv = true → beUint s.block.ea.toList = 1000 * v + n → beSint64 s.block.iv.toList = m →
    (1000 * v + n) * m ≤ 2 ^ 64 - 1 →
    ∃ t u, exec .scale s = .next t ∧ beUint t.block.er.toList = 1000 * v * m + m * n
      ∧ exec .decode (copyErToEa t) = .next u
      ∧ beSint64 u.block.ir.toList =
          if m = 0 then (if n = 0 then 0 else -1) else ((v * m + (m - 1) * n / 1000 : Nat) : Int)

/-- 42_encoder.md R169: ADD is commutative, and associative when no sum overflows; SCALE by s and then t is SCALE by s * t
when nothing overflows. -/
def Obligations.AddAndScaleObeyArithmeticLaws : Prop :=
  (∀ s : State, ∃ t t', exec .add s = .next t
      ∧ exec .add { s with block := { s.block with ea := s.block.eb, eb := s.block.ea } } = .next t'
      ∧ t'.block.er = t.block.er ∧ t'.block.status = t.block.status)
  ∧ (∀ (s t : State) (c : Vector Byte 8),
      beUint s.block.ea.toList + beUint s.block.eb.toList + beUint c.toList ≤ 2 ^ 64 - 1 → exec .add s = .next t →
      ∃ u p q, exec .add { s with block := { s.block with ea := s.block.eb, eb := c } } = .next u
        ∧ exec .add { s with block := { s.block with ea := t.block.er, eb := c } } = .next p
        ∧ exec .add { s with block := { s.block with eb := u.block.er } } = .next q
        ∧ p.block.er = q.block.er)
  ∧ ∀ (s : State) (iv iv' : Vector Byte 8),
      let a : Int := beUint s.block.ea.toList
      let x := beSint64 s.block.iv.toList
      let y := beSint64 iv.toList
      0 ≤ a * x → a * x ≤ 2 ^ 64 - 1 → 0 ≤ a * x * y → a * x * y ≤ 2 ^ 64 - 1 → beSint64 iv'.toList = x * y →
      ∃ t u p, exec .scale s = .next t
        ∧ exec .scale { s with block := { s.block with ea := t.block.er, iv := iv } } = .next u
        ∧ exec .scale { s with block := { s.block with iv := iv' } } = .next p
        ∧ u.block.er = p.block.er
end

