-- ==== Sys2Proof/Laws/Flags.lean ====
section
/-! SUPPORT. What each update of STATUS and FBCTL does to each bit (10_state.md R32 to R35). -/

namespace Sys2Proof.Machine

@[simp] theorem getLsbD_one_shiftLeft (k j : Nat) : (1#32 <<< k).getLsbD j = (decide (j = k) && decide (k < 32)) := by
  by_cases h : j = k
  · subst h; by_cases h' : j < 32 <;> simp [h']
  · simp only [BitVec.getLsbD_shiftLeft, BitVec.getLsbD_one]
    simp only [h, decide_false, Bool.false_and]
    by_cases h1 : j < 32 <;> by_cases h2 : j < k <;> simp [h1, h2]
    omega

/-- Each bit after `setBit`. -/
theorem getLsbD_setBit (w : Word) (k : Nat) (v : Bool) (j : Nat) (hj : j < 32) :
    (setBit w k v).getLsbD j = if j = k then v else w.getLsbD j := by
  unfold setBit
  by_cases h : j = k
  · subst h
    cases v <;>
      simp only [Bool.false_eq_true, if_false, if_true, BitVec.getLsbD_or, BitVec.getLsbD_and, BitVec.getLsbD_not,
        getLsbD_one_shiftLeft, hj, decide_true, Bool.and_true, Bool.or_true, Bool.not_true, Bool.and_false]
  · cases v <;>
      simp only [Bool.false_eq_true, if_false, if_true, BitVec.getLsbD_or, BitVec.getLsbD_and, BitVec.getLsbD_not,
        getLsbD_one_shiftLeft, hj, h, decide_true, decide_false, Bool.false_and, Bool.or_false,
        Bool.not_false, Bool.and_true]

/-- Each bit after a STATUS write (10_state.md R33). -/
theorem getLsbD_statusAfterWrite (st w : Word) (j : Nat) (hj : j < 32) :
    (statusAfterWrite st w).getLsbD j
      = if j ∈ [1, 8, 9, 10, 11, 12] ∧ w.getLsbD j = true then false else st.getLsbD j := by
  have h : statusClearable.getLsbD j = decide (j ∈ [1, 8, 9, 10, 11, 12]) := by
    revert j; decide
  simp only [statusAfterWrite, BitVec.getLsbD_and, BitVec.getLsbD_not, hj, h, decide_true, Bool.true_and]
  by_cases h1 : j ∈ [1, 8, 9, 10, 11, 12] <;> cases h2 : w.getLsbD j <;>
    simp only [h1, decide_true, decide_false, Bool.and_true, Bool.and_false, Bool.not_true, Bool.not_false,
      true_and, false_and, Bool.false_eq_true, if_true, if_false]

theorem getLsbD_ite_one (v : Bool) (k : Nat) (h : k ≠ 0) : (if v then 1#32 else 0#32).getLsbD k = false := by
  cases v
  · exact BitVec.getLsbD_zero
  · simp [BitVec.getLsbD_one, h]

/-- FBV after a field write (10_state.md R34). -/
theorem fbv_fbctlWith (w : Word) (v : Bool) (n : BitVec 5) : (fbctlWith w v n).getLsbD 0 = v := by
  cases v <;> simp [fbctlWith]

/-- FBLEN after a field write (10_state.md R34). -/
theorem fblenField_fbctlWith (w : Word) (v : Bool) (n : BitVec 5) : fblenField (fbctlWith w v n) = n := by
  apply BitVec.eq_of_getLsbD_eq
  intro i hi
  have h1 : fbctlFields.getLsbD (8 + i) = true := by revert i; decide
  have h2 := getLsbD_ite_one v (8 + i) (by omega)
  have h3 : ¬ 8 + i < 8 := by omega
  have h4 : 8 + i < 32 := by omega
  have h5 : 8 + i - 8 = i := by omega
  simp only [fblenField, fbctlWith, BitVec.getLsbD_extractLsb', BitVec.getLsbD_or, BitVec.getLsbD_and,
    BitVec.getLsbD_not, BitVec.getLsbD_shiftLeft, BitVec.getLsbD_setWidth, hi, h1, h2, h3, h4, h5, decide_true,
    decide_false, Bool.true_and, Bool.not_true, Bool.and_false, Bool.false_or, Bool.not_false]
  have h6 : i < 32 := by omega
  simp only [h6, decide_true, Bool.true_and]

/-- The reserved bits after a field write are kept (10_state.md R34). -/
theorem getLsbD_fbctlWith_reserved (w : Word) (v : Bool) (n : BitVec 5) (k : Nat) (hk : k < 32) (h0 : k ≠ 0)
    (h : k < 8 ∨ 12 < k) : (fbctlWith w v n).getLsbD k = w.getLsbD k := by
  have h1 : fbctlFields.getLsbD k = false := by revert k; decide
  have h2 := getLsbD_ite_one v k h0
  have h3 : (n.setWidth 32 <<< 8).getLsbD k = false := by
    rcases h with h | h
    · simp only [BitVec.getLsbD_shiftLeft, h, decide_true, Bool.not_true, Bool.and_false, Bool.false_and]
    · have : n.getLsbD (k - 8) = false := BitVec.getLsbD_of_ge _ _ (by omega)
      simp only [BitVec.getLsbD_shiftLeft, BitVec.getLsbD_setWidth, this, Bool.and_false]
  simp only [fbctlWith, BitVec.getLsbD_or, BitVec.getLsbD_and, BitVec.getLsbD_not, hk, h1, h2, h3, decide_true,
    Bool.not_false, Bool.and_true, Bool.or_false]

/-- The clamped length is the smaller of the value and 16 (10_state.md R35). -/
theorem clampFblen_toNat (n : BitVec 5) : (clampFblen n).toNat = min n.toNat 16 := by
  revert n; decide

end Sys2Proof.Machine
end

