-- ==== Sys2Proof/Laws/Operands.lean ====
section
/-! SUPPORT. Byte strings and integers: lengths, bounds, and that the readings of 00_scope.md R7 invert its writings. -/

namespace Sys2Proof.Machine

@[simp] theorem slice_zero (S : Bytes) (b : Nat) : slice S 0 b = S.take b := by simp [slice]

theorem slice_length (S : Bytes) (a b : Nat) : (slice S a b).length = min (b - a) (S.length - a) := by
  simp [slice]

@[simp] theorem pad_toList (S : Bytes) (n : Nat) : (pad S n).toList = S.take n ++ List.replicate (n - S.length) 0 := rfl

@[simp] theorem uintReg_toList (r : Nat) : (uintReg r).toList = beBytes 8 r := rfl

theorem xorBytes_length (S T : Bytes) : (xorBytes S T).length = min S.length T.length := by simp [xorBytes]

/-- XOR with the same string twice is the identity on its length. -/
theorem xorBytes_cancel (S T : Bytes) (h : S.length = T.length) : xorBytes (xorBytes S T) T = S := by
  induction S generalizing T with
  | nil => cases T <;> rfl
  | cons x xs ih =>
    cases T with
    | nil => simp at h
    | cons y ys =>
      have h' : xs.length = ys.length := by simpa using h
      have := ih ys h'
      simp only [xorBytes, List.zipWith_cons_cons] at this ⊢
      rw [this, BitVec.xor_assoc, BitVec.xor_self, BitVec.xor_zero]

/-- XOR with a fixed string is injective in the other one. -/
theorem xorBytes_left_cancel (S T U : Bytes) (hT : T.length = S.length) (hU : U.length = S.length)
    (h : xorBytes S T = xorBytes S U) : T = U := by
  induction S generalizing T U with
  | nil => simp_all
  | cons x xs ih =>
    cases T with
    | nil => simp at hT
    | cons y ys =>
      cases U with
      | nil => simp at hU
      | cons z zs =>
        simp only [xorBytes, List.zipWith_cons_cons, List.cons.injEq] at h
        have h1 : y = z := by
          have := congrArg (fun t => x ^^^ t) h.1
          simpa [← BitVec.xor_assoc] using this
        rw [h1, ih ys zs (by simpa using hT) (by simpa using hU) h.2]

theorem beUint_lt (S : Bytes) : beUint S < 256 ^ S.length := by
  induction S with
  | nil => simp [beUint]
  | cons x xs ih =>
    have hx : x.toNat ≤ 255 := by have := x.isLt; omega
    simp only [beUint, List.length_cons, Nat.pow_succ]
    calc x.toNat * 256 ^ xs.length + beUint xs
        < x.toNat * 256 ^ xs.length + 256 ^ xs.length := by omega
      _ = (x.toNat + 1) * 256 ^ xs.length := by ring
      _ ≤ 256 * 256 ^ xs.length := Nat.mul_le_mul_right _ (by omega)
      _ = 256 ^ xs.length * 256 := Nat.mul_comm _ _

/-- Reading what `beBytes` writes (00_scope.md R7). -/
theorem beUint_beBytes (n v : Nat) : beUint (beBytes n v) = v % 256 ^ n := by
  induction n with
  | zero => simp [beBytes, beUint, Nat.mod_one]
  | succ n ih =>
    have h8 : (2 : Nat) ^ 8 = 256 := rfl
    simp only [beBytes, beUint, beBytes_length, ih, BitVec.toNat_ofNat, h8]
    rw [Nat.pow_succ (m := n), Nat.mod_mul, Nat.add_comm, Nat.mul_comm]

theorem beUint_reg8_lt (r : Vector Byte 8) : beUint r.toList < 2 ^ 64 := by
  have := beUint_lt r.toList
  simpa using this

theorem beUint_uintReg (r : Nat) (h : r < 2 ^ 64) : beUint (uintReg r).toList = r := by
  rw [uintReg_toList, beUint_beBytes, Nat.mod_eq_of_lt]
  simpa using h

/-- The sign test of `BE_sint64` on a string of 8 bytes: the first byte is at least 128 exactly when the unsigned reading is
at least 2^63 (00_scope.md R7). -/
theorem beSint64_eq (S : Bytes) (h : S.length = 8) :
    beSint64 S = if 2 ^ 63 ≤ beUint S then (beUint S : Int) - 2 ^ 64 else (beUint S : Int) := by
  cases S with
  | nil => simp at h
  | cons x xs =>
    have hl : xs.length = 7 := by simpa using h
    have hb := beUint_lt xs
    rw [hl] at hb
    have hiff : 128 ≤ ((x :: xs).headD 0).toNat ↔ 2 ^ 63 ≤ beUint (x :: xs) := by
      simp only [List.headD_cons, beUint, hl]
      omega
    simp only [beSint64, hiff]

/-- Reading what `sintReg` writes, in the i64 range (42_encoder.md R161). -/
theorem beSint64_sintReg (d : Int) (h1 : -2 ^ 63 ≤ d) (h2 : d < 2 ^ 63) : beSint64 (sintReg d).toList = d := by
  have hlt : (d % 2 ^ 64).toNat < 2 ^ 64 := by omega
  rw [beSint64_eq _ (by simp), sintReg, beUint_uintReg _ hlt]
  split <;> omega

theorem noise_lt (b : Block) : b.noise < 1000 := Nat.mod_lt _ (by decide)

theorem noise_eq (b : Block) : b.noise = beUint (b.key.toList.take 4) % 1000 := by simp [Block.noise]

/-- SEED as the integer the first 8 key bytes read as (10_state.md R36). -/
theorem seed_toNat (b : Block) : b.seed.toNat = beUint (b.key.toList.take 8) := by
  have h : beUint (b.key.toList.take 8) < 2 ^ 64 := by
    have := beUint_lt (b.key.toList.take 8)
    simpa using this
  simp only [Block.seed, slice_zero, BitVec.toNat_ofNat]
  exact Nat.mod_eq_of_lt h

theorem inBlock_eq (b : Block) (L : Nat) : b.inBlock L = b.blkIn.toList.take L := by simp [Block.inBlock]

theorem inBlock_length (b : Block) (L : Nat) : (b.inBlock L).length = min L 32 := by simp [inBlock_eq]

/-- The keystream has the block's length, at most 32 (40_keystream.md R105). -/
theorem generate_length (ksg : Config.Ksg) (seed : BitVec 64) (B : Bytes) (F : Option Bytes) :
    (generate ksg seed B F).length = min B.length 32 := by simp [generate]

theorem effLen_eq (n : Nat) : effLen n = min n 32 := rfl

theorem effLen_le (n : Nat) : effLen n ≤ 32 := Nat.min_le_right _ _

/-- The quotient of DECODE lies in -1..18446744073709551 (42_encoder.md R164). -/
theorem decode_quotient_range (A n : Nat) (hA : A < 2 ^ 64) (hn : n < 1000) :
    -1 ≤ ((A : Int) - n) / 1000 ∧ ((A : Int) - n) / 1000 ≤ 18446744073709551 := by omega

end Sys2Proof.Machine
end

