-- ==== Sys2Proof/Laws/State.lean ====
section
/-! SUPPORT. One lemma per field per update of the state records, true by `rfl`, so that no later proof unfolds an update. -/

namespace Sys2Proof.Machine

variable (s : State) (b : Block)

@[simp] theorem State.withBlock_block : (s.withBlock b).block = b := rfl
@[simp] theorem State.withBlock_host : (s.withBlock b).host = s.host := rfl
@[simp] theorem State.withBlock_delay : (s.withBlock b).delay = s.delay := rfl
@[simp] theorem State.withBlock_freeIdx : (s.withBlock b).freeIdx = s.freeIdx := rfl

@[simp] theorem State.withInputs_block (l : List Input) : (s.withInputs l).block = s.block := rfl
@[simp] theorem State.withInputs_inputs (l : List Input) : (s.withInputs l).host.inputs = l := rfl
@[simp] theorem State.withInputs_replies (l : List Input) : (s.withInputs l).host.replies = s.host.replies := rfl
@[simp] theorem State.withInputs_busFault (l : List Input) : (s.withInputs l).host.busFault = s.host.busFault := rfl
@[simp] theorem State.withInputs_delay (l : List Input) : (s.withInputs l).delay = s.delay := rfl
@[simp] theorem State.withInputs_freeIdx (l : List Input) : (s.withInputs l).freeIdx = s.freeIdx := rfl

@[simp] theorem State.raiseBusfault_block (off : BitVec 8) : (s.raiseBusfault off).block = s.block := rfl
@[simp] theorem State.raiseBusfault_inputs (off : BitVec 8) : (s.raiseBusfault off).host.inputs = s.host.inputs := rfl
@[simp] theorem State.raiseBusfault_busFault (off : BitVec 8) : (s.raiseBusfault off).host.busFault = true := rfl
@[simp] theorem State.raiseBusfault_delay (off : BitVec 8) : (s.raiseBusfault off).delay = s.delay := rfl

@[simp] theorem State.pendNow_pend (c : Word) : (s.pendNow c).block.pend = some c := rfl
@[simp] theorem State.pendNow_delay (c : Word) : (s.pendNow c).delay = 0 := rfl
@[simp] theorem State.pendNow_host (c : Word) : (s.pendNow c).host = s.host := rfl
@[simp] theorem State.pendNow_status (c : Word) :
    (s.pendNow c).block.status = setBit s.block.status bitBusy true := rfl

@[simp] theorem resetEvent_block : (resetEvent s).block = Block.reset := rfl
@[simp] theorem resetEvent_host : (resetEvent s).host = s.host := rfl

@[simp] theorem Block.release_pend : b.release.pend = none := rfl
@[simp] theorem Block.release_status :
    b.release.status = setBit (setBit b.status bitDone true) bitBusy false := rfl
@[simp] theorem Block.release_fbctl : b.release.fbctl = b.fbctl := rfl
@[simp] theorem Block.release_fb : b.release.fb = b.fb := rfl
@[simp] theorem Block.release_key : b.release.key = b.key := rfl
@[simp] theorem Block.release_blkIn : b.release.blkIn = b.blkIn := rfl
@[simp] theorem Block.release_blkOut : b.release.blkOut = b.blkOut := rfl
@[simp] theorem Block.release_ea : b.release.ea = b.ea := rfl
@[simp] theorem Block.release_eb : b.release.eb = b.eb := rfl
@[simp] theorem Block.release_er : b.release.er = b.er := rfl
@[simp] theorem Block.release_iv : b.release.iv = b.iv := rfl
@[simp] theorem Block.release_ir : b.release.ir = b.ir := rfl

@[simp] theorem Block.issue_pend (c : Word) : (b.issue c).pend = some c := rfl
@[simp] theorem Block.issue_status (c : Word) : (b.issue c).status = setBit b.status bitBusy true := rfl
@[simp] theorem Block.issue_fbctl (c : Word) : (b.issue c).fbctl = b.fbctl := rfl
@[simp] theorem Block.issue_ir (c : Word) : (b.issue c).ir = b.ir := rfl

@[simp] theorem Block.putOut_status (l : Bytes) : (b.putOut l).status = b.status := rfl
@[simp] theorem Block.putOut_fbctl (l : Bytes) : (b.putOut l).fbctl = b.fbctl := rfl
@[simp] theorem Block.putOut_ir (l : Bytes) : (b.putOut l).ir = b.ir := rfl
@[simp] theorem Block.putOut_blkOut (l : Bytes) : (b.putOut l).blkOut = pad l 32 := rfl

@[simp] theorem Block.startPass_status : b.startPass.status = setBit b.status bitSclosed false := rfl
@[simp] theorem Block.startPass_fbctl : b.startPass.fbctl = fbctlWith b.fbctl false 0#5 := rfl
@[simp] theorem Block.startPass_ir : b.startPass.ir = b.ir := rfl
@[simp] theorem Block.startPass_pend : b.startPass.pend = b.pend := rfl

/-- A busfault records nothing in the block (20_memory.md R57). -/
theorem Block.recordFault_busfault : b.recordFault .busfault = b := rfl

end Sys2Proof.Machine
end

