-- ==== Sys2Proof/Laws/Ops.lean ====
section
/-! SUPPORT. What each shared operation can do, said once: completion (30_encoding.md R88), the recording of a fault
(60_exceptions.md R208), the guards (R207), the ER write (42_encoder.md R162), the start of a pass and the feedback update
(41_stream.md R131 to R133). -/

namespace Sys2Proof.Machine

/-- Each STATUS bit after a completion: DONE set, BUSY cleared, the rest as the rule left it. -/
theorem getLsbD_release_status (b : Block) (j : Nat) (hj : j < 32) :
    b.release.status.getLsbD j = if j = 1 then true else if j = 0 then false else b.status.getLsbD j := by
  rw [Block.release_status, getLsbD_setBit _ _ _ _ hj, getLsbD_setBit _ _ _ _ hj]
  by_cases h0 : j = 0
  · subst h0; simp [bitBusy]
  · by_cases h1 : j = 1 <;> simp [h0, h1, bitBusy, bitDone]

/-- A completion answers a next state that differs in the block only. -/
theorem completeWith_next (r : Except Fault Block) (s : State) :
    completeWith r s = .next { s with block := s.block.finish r } := rfl

@[simp] theorem finish_ok (b b' : Block) : b.finish (.ok b') = b'.release := rfl

@[simp] theorem finish_error (b : Block) (f : Fault) : b.finish (.error f) = (b.recordFault f).release := rfl

/-- Recording a fault writes its STATUS bit and nothing else (60_exceptions.md R208). -/
theorem recordFault_eq (b : Block) (f : Fault) (k : Nat) (h : f.statusBit = some k) :
    b.recordFault f = { b with status := setBit b.status k true } := by
  simp only [Block.recordFault, h]

@[simp] theorem requireKey_of_keyv (b : Block) (r : Except Fault Block) (h : b.keyv = true) : requireKey b r = r := by
  simp [requireKey, h]

@[simp] theorem requireKey_of_not_keyv (b : Block) (r : Except Fault Block) (h : b.keyv = false) :
    requireKey b r = .error .eNokey := by
  simp [requireKey, h]

@[simp] theorem requireOpen_of_open (b : Block) (r : Except Fault Block) (h : b.sclosed = false) :
    requireOpen b r = r := by
  simp [requireOpen, h]

@[simp] theorem requireOpen_of_closed (b : Block) (r : Except Fault Block) (h : b.sclosed = true) :
    requireOpen b r = .error .eSeq := by
  simp [requireOpen, h]

/-- ER takes an in-range result (42_encoder.md R162). -/
theorem writeEr_in_range (b : Block) (r : Int) (h0 : 0 ≤ r) (h1 : r ≤ 2 ^ 64 - 1) :
    writeEr b r = .ok { b with er := uintReg r.toNat } := by
  simp only [writeEr]
  rw [if_neg (by omega)]

/-- An out-of-range result raises E_OVF (42_encoder.md R162). -/
theorem writeEr_out_of_range (b : Block) (r : Int) (h : r < 0 ∨ 2 ^ 64 - 1 < r) : writeEr b r = .error .eOvf := by
  simp only [writeEr, if_pos h]

/-- An ER write is one of the two. -/
theorem writeEr_cases (b : Block) (r : Int) :
    (0 ≤ r ∧ r ≤ 2 ^ 64 - 1 ∧ writeEr b r = .ok { b with er := uintReg r.toNat })
      ∨ ((r < 0 ∨ 2 ^ 64 - 1 < r) ∧ writeEr b r = .error .eOvf) := by
  by_cases h : r < 0 ∨ 2 ^ 64 - 1 < r
  · exact .inr ⟨h, writeEr_out_of_range b r h⟩
  · have h0 : 0 ≤ r := by omega
    have h1 : r ≤ 2 ^ 64 - 1 := by omega
    exact .inl ⟨h0, h1, writeEr_in_range b r h0 h1⟩

/-- The feedback update of a full block (41_stream.md R132, R133). -/
theorem advance_full (b : Block) (fb : Bytes) :
    b.advance 32 fb = { b with fb := pad (fb.take 16) 16, fbctl := fbctlWith b.fbctl true 16#5 } := by
  simp [Block.advance]

/-- A short block closes the pass and leaves the feedback (41_stream.md R132, R133). -/
theorem advance_short (b : Block) (L : Nat) (fb : Bytes) (h : L < 32) :
    b.advance L fb = { b with status := setBit b.status bitSclosed true } := by
  simp only [Block.advance]
  rw [if_neg (by omega)]

end Sys2Proof.Machine
end

