-- ==== Sys2Proof/Laws/Commands.lean ====
section
/-! SUPPORT. The completion of each command as one equation per case: what it writes, everything else being kept. -/

namespace Sys2Proof.Machine

/-- A completion whose rule raised: the error bit, DONE, BUSY and PEND, nothing else (60_exceptions.md R208). -/
theorem completeWith_error (s : State) (f : Fault) (k : Nat) (h : f.statusBit = some k) :
    completeWith (.error f) s = .next { s with
      block := { s.block with
        status := setBit (setBit (setBit s.block.status k true) bitDone true) bitBusy false
        pend := none } } := by
  rw [completeWith_next, finish_error, recordFault_eq _ _ _ h]
  rfl

/-- Each command's completion is a completion of its guarded rule. -/
theorem exec_next (i : Instr) (s : State) : ∃ r, exec i s = .next { s with block := s.block.finish r } := by
  cases i <;> exact ⟨_, rfl⟩

/-- SENC and SDEC on a full block (41_stream.md R132, R133). -/
theorem sencRule_full (ksg : Config.Ksg) (b : Block) :
    sencRule ksg 32 b =
      { b with
        blkOut := pad (xorBytes (b.inBlock 32) (generate ksg b.seed (b.inBlock 32) b.fbop)) 32
        fb := pad ((generate ksg b.seed (b.inBlock 32) b.fbop).take 16) 16
        fbctl := fbctlWith b.fbctl true 16#5 } := by
  simp only [sencRule, advance_full]
  rfl

theorem sdecRule_full (ksg : Config.Ksg) (b : Block) :
    sdecRule ksg 32 b =
      { b with
        blkOut := pad (xorBytes (b.inBlock 32) (generate ksg b.seed (b.inBlock 32) b.fbop)) 32
        fb := pad ((b.inBlock 32).take 16) 16
        fbctl := fbctlWith b.fbctl true 16#5 } := by
  simp only [sdecRule, advance_full]
  rfl

/-- SENC and SDEC on a short block (41_stream.md R132, R133). -/
theorem sencRule_short (ksg : Config.Ksg) (b : Block) (L : Nat) (h : L < 32) :
    sencRule ksg L b =
      { b with
        blkOut := pad (xorBytes (b.inBlock L) (generate ksg b.seed (b.inBlock L) b.fbop)) 32
        status := setBit b.status bitSclosed true } := by
  simp only [sencRule, advance_short _ _ _ h]
  rfl

theorem sdecRule_short (ksg : Config.Ksg) (b : Block) (L : Nat) (h : L < 32) :
    sdecRule ksg L b =
      { b with
        blkOut := pad (xorBytes (b.inBlock L) (generate ksg b.seed (b.inBlock L) b.fbop)) 32
        status := setBit b.status bitSclosed true } := by
  simp only [sdecRule, advance_short _ _ _ h]
  rfl

end Sys2Proof.Machine
end

