-- ==== Sys2Proof/Laws/Decode.lean ====
section
/-! SUPPORT. What the decoder answers, in terms of the command word's fields (30_encoding.md R81, R85). -/

namespace Sys2Proof

/-- A 32-bit word is its three fields. -/
theorem word_ext (c d : Word) (h1 : opField c = opField d) (h2 : lenField c = lenField d) (h3 : rsvField c = rsvField d) :
    c = d := by
  apply BitVec.eq_of_getLsbD_eq
  intro i hi
  by_cases a : i < 8
  · have := congrArg (fun x => x.getLsbD i) h1
    simpa only [opField, BitVec.getLsbD_extractLsb', a, decide_true, Bool.true_and, Nat.zero_add] using this
  · by_cases b : i < 14
    · have := congrArg (fun x => x.getLsbD (i - 8)) h2
      have e : 8 + (i - 8) = i := by omega
      have e' : i - 8 < 6 := by omega
      simpa only [lenField, BitVec.getLsbD_extractLsb', e', e, decide_true, Bool.true_and] using this
    · have := congrArg (fun x => x.getLsbD (i - 14)) h3
      have e : 14 + (i - 14) = i := by omega
      have e' : i - 14 < 18 := by omega
      simpa only [rsvField, BitVec.getLsbD_extractLsb', e', e, decide_true, Bool.true_and] using this

/-- The fields as numbers. -/
theorem opField_toNat (c : Word) : (opField c).toNat = c.toNat % 256 := by
  simp [opField]

theorem lenField_toNat (c : Word) : (lenField c).toNat = c.toNat / 256 % 64 := by
  simp [lenField, BitVec.extractLsb'_toNat, Nat.shiftRight_eq_div_pow]

theorem rsvField_toNat (c : Word) : (rsvField c).toNat = c.toNat / 16384 := by
  have := c.isLt
  simp only [rsvField, BitVec.extractLsb'_toNat, Nat.shiftRight_eq_div_pow]
  omega

/-- The encoder's word with LEN, as a number (30_encoding.md R90). -/
theorem wordWithLen_eq (m : Word) (n : Nat) (hm : m.toNat < 256) (hn : n ≤ 63) :
    wordWithLen m n = BitVec.ofNat 32 (n * 256 + m.toNat) := by
  apply BitVec.eq_of_toNat_eq
  have h2 : n * 256 % 4294967296 = n * 256 := Nat.mod_eq_of_lt (by omega)
  have h3 : (n * 256 + m.toNat) % 4294967296 = n * 256 + m.toNat := Nat.mod_eq_of_lt (by omega)
  simp only [wordWithLen, BitVec.toNat_or, BitVec.toNat_shiftLeft, BitVec.toNat_ofNat, Nat.shiftLeft_eq]
  norm_num
  rw [h2, h3, Nat.lor_comm, show n * 256 = n <<< 8 by simp [Nat.shiftLeft_eq]]
  exact (Nat.shiftLeft_add_eq_or_of_lt hm n).symm

/-- The decoder in arithmetic form. -/
theorem decode_ofNat (op len : Nat) (ho : op < 256) (hl : len < 64) :
    decode (BitVec.ofNat 32 (len * 256 + op)) = decodeOp op len := by
  have h3 : (len * 256 + op) % 4294967296 = len * 256 + op := Nat.mod_eq_of_lt (by omega)
  have hop : (opField (BitVec.ofNat 32 (len * 256 + op))).toNat = op := by
    rw [opField_toNat, BitVec.toNat_ofNat]; norm_num; omega
  have hlen : (lenField (BitVec.ofNat 32 (len * 256 + op))).toNat = len := by
    rw [lenField_toNat, BitVec.toNat_ofNat]; norm_num; omega
  have hrsv : rsvField (BitVec.ofNat 32 (len * 256 + op)) = 0 := by
    apply BitVec.eq_of_toNat_eq
    rw [rsvField_toNat, BitVec.toNat_ofNat, show (0 : BitVec 18).toNat = 0 from rfl]; norm_num; omega
  simp only [decode, hrsv, hop, hlen, if_true]

/-- A decoded word is `LEN * 256 + OP`, and the decoder answered on these. -/
theorem decode_some (c : Word) (i : Instr) (h : decode c = some i) :
    decodeOp (opField c).toNat (lenField c).toNat = some i
      ∧ c = BitVec.ofNat 32 ((lenField c).toNat * 256 + (opField c).toNat) := by
  simp only [decode] at h
  split at h
  · rename_i hr
    refine ⟨h, ?_⟩
    apply BitVec.eq_of_toNat_eq
    have hr' := congrArg BitVec.toNat hr
    rw [rsvField_toNat] at hr'
    rw [BitVec.toNat_ofNat, opField_toNat, lenField_toNat]
    have : c.toNat / 16384 = 0 := by simpa using hr'
    omega
  · simp at h

theorem withoutLen_some (len : Nat) (i j : Instr) : withoutLen len i = some j ↔ len = 0 ∧ i = j := by
  simp only [withoutLen]
  split <;> simp_all

/-- Every case in which the opcode map answers a command (30_encoding.md R84). -/
theorem decodeOp_cases (op len : Nat) (i : Instr) (h : decodeOp op len = some i) :
    (op = 0x00 ∧ len = 0 ∧ i = .nop) ∨ (op = 0x01 ∧ len = 0 ∧ i = .keyload) ∨ (op = 0x02 ∧ i = .gen len)
      ∨ (op = 0x03 ∧ len = 0 ∧ i = .sinit) ∨ (op = 0x04 ∧ i = .senc len) ∨ (op = 0x05 ∧ i = .sdec len)
      ∨ (op = 0x08 ∧ len = 0 ∧ i = .encode) ∨ (op = 0x09 ∧ len = 0 ∧ i = .decode)
      ∨ (op = 0x0A ∧ len = 0 ∧ i = .add) ∨ (op = 0x0B ∧ len = 0 ∧ i = .scale) := by
  unfold decodeOp at h
  split at h <;> simp_all [withoutLen_some]

/-- The mask of a row with LEN fixes RSV and OP (30_encoding.md R84). -/
theorem and_lenMask_eq (c m : Word) (hm : m.toNat < 256) :
    (c &&& 0xFFFFC0FF#32 = m) ↔ (rsvField c = 0 ∧ (opField c).toNat = m.toNat) := by
  have e1 : rsvField (c &&& 0xFFFFC0FF#32) = rsvField c := by
    apply BitVec.eq_of_getLsbD_eq; intro i hi
    have : (0xFFFFC0FF#32).getLsbD (14+i) = true := by revert i; decide
    simp only [rsvField, BitVec.getLsbD_extractLsb', BitVec.getLsbD_and, this, Bool.and_true]
  have e2 : opField (c &&& 0xFFFFC0FF#32) = opField c := by
    apply BitVec.eq_of_getLsbD_eq; intro i hi
    have : (0xFFFFC0FF#32).getLsbD (0+i) = true := by revert i; decide
    simp only [opField, BitVec.getLsbD_extractLsb', BitVec.getLsbD_and, this, Bool.and_true]
  have e3 : lenField (c &&& 0xFFFFC0FF#32) = 0 := by
    apply BitVec.eq_of_getLsbD_eq; intro i hi
    have : (0xFFFFC0FF#32).getLsbD (8+i) = false := by revert i; decide
    simp only [lenField, BitVec.getLsbD_extractLsb', BitVec.getLsbD_and, this, Bool.and_false]; simp
  have r0 : rsvField m = 0 := by
    apply BitVec.eq_of_toNat_eq; rw [rsvField_toNat, show (0 : BitVec 18).toNat = 0 from rfl]; omega
  have l0 : lenField m = 0 := by
    apply BitVec.eq_of_toNat_eq; rw [lenField_toNat, show (0 : BitVec 6).toNat = 0 from rfl]; omega
  have o0 : (opField m).toNat = m.toNat := by rw [opField_toNat]; omega
  constructor
  · intro h
    rw [← h] at r0 o0
    rw [e1] at r0; rw [e2] at o0
    exact ⟨r0, by rw [o0, h]⟩
  · rintro ⟨h1, h2⟩
    apply word_ext
    · rw [e2]; apply BitVec.eq_of_toNat_eq; rw [h2, o0]
    · rw [e3, l0]
    · rw [e1, h1, r0]

/-- The mask of a row without LEN fixes every bit (30_encoding.md R84). -/
theorem and_fullMask_eq (c m : Word) : (c &&& 0xFFFFFFFF#32 = m) ↔ c = m := by
  have : c &&& 0xFFFFFFFF#32 = c := by
    have : (0xFFFFFFFF#32) = BitVec.allOnes 32 := by decide
    rw [this, BitVec.and_allOnes]
  rw [this]

/-- A word equal to an opcode alone has RSV = 0 and LEN = 0. -/
theorem word_eq_iff_fields (c m : Word) (hm : m.toNat < 256) :
    c = m ↔ rsvField c = 0 ∧ lenField c = 0 ∧ (opField c).toNat = m.toNat := by
  have r0 : rsvField m = 0 := by
    apply BitVec.eq_of_toNat_eq; rw [rsvField_toNat, show (0 : BitVec 18).toNat = 0 from rfl]; omega
  have l0 : lenField m = 0 := by
    apply BitVec.eq_of_toNat_eq; rw [lenField_toNat, show (0 : BitVec 6).toNat = 0 from rfl]; omega
  have o0 : (opField m).toNat = m.toNat := by rw [opField_toNat]; omega
  constructor
  · rintro rfl; exact ⟨r0, l0, o0⟩
  · rintro ⟨h1, h2, h3⟩
    exact word_ext _ _ (BitVec.eq_of_toNat_eq (by rw [h3, o0])) (by rw [h2, l0]) (by rw [h1, r0])

end Sys2Proof
end

