-- ==== Sys2Proof/Laws/PerInstr.lean ====
section
/-! SUPPORT. Statements made per command: the encoding of a well-formed command meets the match and mask of its row in
30_encoding.md R84. -/

namespace Sys2Proof.Laws

/-- The row of the pattern table a command belongs to (30_encoding.md R84). -/
def rowIndex (i : Instr) : Fin 10 :=
  match i with
  | .nop => 0
  | .keyload => 1
  | .gen _ => 2
  | .sinit => 3
  | .senc _ => 4
  | .sdec _ => 5
  | .encode => 6
  | .decode => 7
  | .add => 8
  | .scale => 9

/-- The word of a well-formed command meets its own row's match and mask (30_encoding.md R84, R90). -/
def EncodingFitsRow.Statement (i : Instr) : Prop := i.wf = true → rows[rowIndex i].hits (encode i) = true

/-- A word with LEN meets the mask of its row, whatever LEN is. -/
theorem wordWithLen_and_mask (m : Word) (n : Nat) (hm : m.toNat < 256) (hn : n ≤ 63) :
    wordWithLen m n &&& 0xFFFFC0FF#32 = m := by
  rw [and_lenMask_eq _ _ hm, wordWithLen_eq _ _ hm hn]
  have h : (n * 256 + m.toNat) % 4294967296 = n * 256 + m.toNat := Nat.mod_eq_of_lt (by omega)
  constructor
  · apply BitVec.eq_of_toNat_eq
    rw [rsvField_toNat, BitVec.toNat_ofNat, show (0 : BitVec 18).toNat = 0 from rfl]
    norm_num
    omega
  · rw [opField_toNat, BitVec.toNat_ofNat]
    norm_num
    omega

theorem EncodingFitsRow.nop : EncodingFitsRow.Statement .nop := fun _ => by decide

theorem EncodingFitsRow.keyload : EncodingFitsRow.Statement .keyload := fun _ => by decide

theorem EncodingFitsRow.gen (n : Nat) : EncodingFitsRow.Statement (.gen n) := fun h => by
  have hn : n ≤ 63 := of_decide_eq_true h
  exact beq_iff_eq.2 (wordWithLen_and_mask 0x00000002 n (by decide) hn)

theorem EncodingFitsRow.sinit : EncodingFitsRow.Statement .sinit := fun _ => by decide

theorem EncodingFitsRow.senc (n : Nat) : EncodingFitsRow.Statement (.senc n) := fun h => by
  have hn : n ≤ 63 := of_decide_eq_true h
  exact beq_iff_eq.2 (wordWithLen_and_mask 0x00000004 n (by decide) hn)

theorem EncodingFitsRow.sdec (n : Nat) : EncodingFitsRow.Statement (.sdec n) := fun h => by
  have hn : n ≤ 63 := of_decide_eq_true h
  exact beq_iff_eq.2 (wordWithLen_and_mask 0x00000005 n (by decide) hn)

theorem EncodingFitsRow.encode : EncodingFitsRow.Statement .encode := fun _ => by decide

theorem EncodingFitsRow.decode : EncodingFitsRow.Statement .decode := fun _ => by decide

theorem EncodingFitsRow.add : EncodingFitsRow.Statement .add := fun _ => by decide

theorem EncodingFitsRow.scale : EncodingFitsRow.Statement .scale := fun _ => by decide

end Sys2Proof.Laws
end

