-- ==== Sys2Proof/Laws/Window.lean ====
section
/-! SUPPORT. The register window: what a byte write keeps, reading after writing, what one host step can do to the block
(20_memory.md R52 to R57). -/

namespace Sys2Proof.Machine

/-- A byte write keeps FBCTL, PEND, IR, ER and BLK_OUT. -/
theorem writeByte_keeps (b : Block) (a : Nat) (x : Byte) :
    (b.writeByte a x).fbctl = b.fbctl ∧ (b.writeByte a x).pend = b.pend ∧ (b.writeByte a x).ir = b.ir
      ∧ (b.writeByte a x).er = b.er ∧ (b.writeByte a x).blkOut = b.blkOut := by
  unfold Block.writeByte
  repeat' split
  all_goals exact ⟨rfl, rfl, rfl, rfl, rfl⟩

/-- A byte write outside KEY keeps KEY and STATUS (20_memory.md R52). -/
theorem writeByte_key_status (b : Block) (a : Nat) (x : Byte) (h : 0x20 ≤ a) :
    (b.writeByte a x).key = b.key ∧ (b.writeByte a x).status = b.status := by
  unfold Block.writeByte
  rw [if_neg (by omega)]
  repeat' split
  all_goals exact ⟨rfl, rfl⟩

/-- A byte write into KEY stores the byte and clears KEYV (10_state.md R23). -/
theorem writeByte_of_key (b : Block) (a : Nat) (x : Byte) (h : a < 0x20) :
    b.writeByte a x = { b with key := b.key.setIfInBounds a x, status := setBit b.status bitKeyv false } := by
  unfold Block.writeByte
  rw [if_pos h]

theorem writeBytes_keeps (b : Block) (a : Nat) (xs : Bytes) :
    (b.writeBytes a xs).fbctl = b.fbctl ∧ (b.writeBytes a xs).pend = b.pend ∧ (b.writeBytes a xs).ir = b.ir := by
  induction xs generalizing a b with
  | nil => exact ⟨rfl, rfl, rfl⟩
  | cons x xs ih =>
    obtain ⟨h1, h2, h3⟩ := ih (b.writeByte a x) (a + 1)
    obtain ⟨g1, g2, g3, -⟩ := writeByte_keeps b a x
    exact ⟨h1.trans g1, h2.trans g2, h3.trans g3⟩

theorem writeBytes_key_status (b : Block) (a : Nat) (xs : Bytes) (h : 0x20 ≤ a) :
    (b.writeBytes a xs).key = b.key ∧ (b.writeBytes a xs).status = b.status := by
  induction xs generalizing a b with
  | nil => exact ⟨rfl, rfl⟩
  | cons x xs ih =>
    obtain ⟨h1, h2⟩ := ih (b.writeByte a x) (a + 1) (by omega)
    obtain ⟨g1, g2⟩ := writeByte_key_status b a x h
    exact ⟨h1.trans g1, h2.trans g2⟩

/-- Any byte writes change no STATUS bit but KEYV, and that only to 0. -/
theorem writeBytes_status (b : Block) (a : Nat) (xs : Bytes) (k : Nat) (hk : k < 32) :
    (b.writeBytes a xs).status.getLsbD k = b.status.getLsbD k
      ∨ (k = bitKeyv ∧ a < 0x20 ∧ (b.writeBytes a xs).status.getLsbD k = false) := by
  induction xs generalizing a b with
  | nil => exact .inl rfl
  | cons x xs ih =>
    by_cases h : a < 0x20
    · have e : (b.writeByte a x).status.getLsbD k = if k = bitKeyv then false else b.status.getLsbD k := by
        rw [writeByte_of_key b a x h]
        exact getLsbD_setBit _ _ _ _ hk
      rcases ih (b.writeByte a x) (a + 1) with g | ⟨g1, -, g3⟩
      · by_cases hv : k = bitKeyv
        · exact .inr ⟨hv, h, by rw [Block.writeBytes, g, e, if_pos hv]⟩
        · exact .inl (by rw [Block.writeBytes, g, e, if_neg hv])
      · exact .inr ⟨g1, h, g3⟩
    · have := (writeBytes_key_status b a (x :: xs) (by omega)).2
      exact .inl (by rw [this])

theorem writeByte_busy (b : Block) (a : Nat) (x : Byte) : (b.writeByte a x).busy = b.busy := by
  have := writeBytes_status b a [x] bitBusy (by decide)
  rcases this with h | ⟨h, -⟩
  · exact h
  · exact absurd h (by decide)

theorem setIfInBounds_toList {n : Nat} (v : Vector Byte n) (i : Nat) (x : Byte) :
    (v.setIfInBounds i x).toList = v.toList.set i x := by
  rcases v with ⟨⟨l⟩, h⟩
  simp [Vector.toList]

/-- The byte stored last is the byte held. -/
theorem stored_byte_held {n : Nat} (reg : Vector Byte n) (k : Nat) (x : Byte) (inside : k < n) :
    (reg.setIfInBounds k x).toList.getD k 0 = x := by
  rw [setIfInBounds_toList, List.getD_eq_getElem _ _ (by simpa using inside), List.getElem_set_self]

/-- A stored byte leaves every other byte of its register. -/
theorem stored_byte_keeps_others {n : Nat} (reg : Vector Byte n) (k other : Nat) (x : Byte) (apart : k ≠ other) :
    (reg.setIfInBounds k x).toList.getD other 0 = reg.toList.getD other 0 := by
  rw [setIfInBounds_toList, List.getD_eq_getElem?_getD, List.getElem?_set_ne apart, List.getD_eq_getElem?_getD]

/-- Where one written byte goes (20_memory.md R52). -/
theorem writeByte_cases (b : Block) (a : Nat) (x : Byte) :
    (a < 0x20 ∧ b.writeByte a x = { b with key := b.key.setIfInBounds a x, status := setBit b.status bitKeyv false })
    ∨ (0x20 ≤ a ∧ a < 0x40 ∧ b.writeByte a x = { b with blkIn := b.blkIn.setIfInBounds (a - 0x20) x })
    ∨ (0x60 ≤ a ∧ a < 0x70 ∧ b.writeByte a x = { b with fb := b.fb.setIfInBounds (a - 0x60) x })
    ∨ (0x80 ≤ a ∧ a < 0x88 ∧ b.writeByte a x = { b with ea := b.ea.setIfInBounds (a - 0x80) x })
    ∨ (0x88 ≤ a ∧ a < 0x90 ∧ b.writeByte a x = { b with eb := b.eb.setIfInBounds (a - 0x88) x })
    ∨ (0x98 ≤ a ∧ a < 0xA0 ∧ b.writeByte a x = { b with iv := b.iv.setIfInBounds (a - 0x98) x })
    ∨ (((0x40 ≤ a ∧ a < 0x60) ∨ (0x70 ≤ a ∧ a < 0x80) ∨ (0x90 ≤ a ∧ a < 0x98) ∨ 0xA0 ≤ a) ∧ b.writeByte a x = b) := by
  unfold Block.writeByte
  repeat' split
  all_goals (simp; omega)

/-- While idle, a written byte of a register the host can read back reads as written (20_memory.md R52, R54). -/
theorem readByte_writeByte_same (b : Block) (a : Nat) (x d : Byte) (hb : b.busy = false)
    (h : (0x20 ≤ a ∧ a < 0x40) ∨ (0x60 ≤ a ∧ a < 0x70) ∨ (0x80 ≤ a ∧ a < 0x90) ∨ (0x98 ≤ a ∧ a < 0xA0)) :
    (b.writeByte a x).readByte d a = x := by
  have hb' : (b.writeByte a x).busy = false := by rw [writeByte_busy, hb]
  have hset : ∀ (n lo : Nat) (v : Vector Byte n), a - lo < n → (v.setIfInBounds (a - lo) x).toList.getD (a - lo) 0 = x :=
    fun _ _ v hn => stored_byte_held v _ x hn
  unfold Block.readByte
  rw [hb', Bool.false_and, if_neg Bool.false_ne_true]
  rcases writeByte_cases b a x with ⟨r, e⟩ | ⟨r, r', e⟩ | ⟨r, r', e⟩ | ⟨r, r', e⟩ | ⟨r, r', e⟩ | ⟨r, r', e⟩ | ⟨r, e⟩
  case' inr.inr.inr.inr.inr.inr => omega
  case' inl => omega
  all_goals
    clear h
    rw [e]
    repeat' split
    all_goals first | omega | exact hset _ _ _ (by omega)

/-- While idle, a byte read depends on the one register the offset lies in (20_memory.md R54). -/
theorem readByte_congr (b b' : Block) (d : Byte) (a : Nat) (hb : b.busy = false) (hb' : b'.busy = false)
    (h1 : 0x20 ≤ a → a < 0x40 → b'.blkIn.toList.getD (a - 0x20) 0 = b.blkIn.toList.getD (a - 0x20) 0)
    (h2 : b'.blkOut = b.blkOut)
    (h3 : 0x60 ≤ a → a < 0x70 → b'.fb.toList.getD (a - 0x60) 0 = b.fb.toList.getD (a - 0x60) 0)
    (h4 : 0x80 ≤ a → a < 0x88 → b'.ea.toList.getD (a - 0x80) 0 = b.ea.toList.getD (a - 0x80) 0)
    (h5 : 0x88 ≤ a → a < 0x90 → b'.eb.toList.getD (a - 0x88) 0 = b.eb.toList.getD (a - 0x88) 0)
    (h6 : b'.er = b.er)
    (h7 : 0x98 ≤ a → a < 0xA0 → b'.iv.toList.getD (a - 0x98) 0 = b.iv.toList.getD (a - 0x98) 0)
    (h8 : b'.ir = b.ir) : b'.readByte d a = b.readByte d a := by
  unfold Block.readByte
  rw [hb', hb, h2, h6, h8]
  simp only [Bool.false_and, Bool.false_eq_true, if_false]
  refine if_ctx_congr Iff.rfl (fun _ => rfl) fun n1 => if_ctx_congr Iff.rfl (fun c => h1 (by omega) c) fun n2 =>
    if_ctx_congr Iff.rfl (fun _ => rfl) fun n3 => if_ctx_congr Iff.rfl (fun c => h3 (by omega) c) fun n4 =>
    if_ctx_congr Iff.rfl (fun _ => rfl) fun n5 => if_ctx_congr Iff.rfl (fun c => h4 (by omega) c) fun n6 =>
    if_ctx_congr Iff.rfl (fun c => h5 (by omega) c) fun n7 => if_ctx_congr Iff.rfl (fun _ => rfl) fun n8 =>
    if_ctx_congr Iff.rfl (fun c => h7 (by omega) c) fun _ => rfl

/-- While idle, every other byte reads as before (20_memory.md R52, R54). -/
theorem readByte_writeByte_other (b : Block) (a a' : Nat) (x d : Byte) (hb : b.busy = false) (h : a ≠ a') :
    (b.writeByte a x).readByte d a' = b.readByte d a' := by
  have hb' : (b.writeByte a x).busy = false := by rw [writeByte_busy, hb]
  have hset : ∀ (n lo : Nat) (v : Vector Byte n), lo ≤ a → lo ≤ a' →
      (v.setIfInBounds (a - lo) x).toList.getD (a' - lo) 0 = v.toList.getD (a' - lo) 0 :=
    fun _ _ v h1 h2 => stored_byte_keeps_others v _ _ x (by omega)
  obtain ⟨-, -, k3, k4, k5⟩ := writeByte_keeps b a x
  apply readByte_congr _ _ _ _ hb hb' ?_ k5 ?_ ?_ ?_ k4 ?_ k3
  all_goals
    intro g1 g2
    rcases writeByte_cases b a x with ⟨r, e⟩ | ⟨r, _, e⟩ | ⟨r, _, e⟩ | ⟨r, _, e⟩ | ⟨r, _, e⟩ | ⟨r, _, e⟩ | ⟨_, e⟩ <;>
      (rw [e]; try exact hset _ _ _ r g1)

/-- The five cases of a legal host write (20_memory.md R52). -/
theorem hostWrite_cases (b : Block) (off : BitVec 8) (w : Nat) (v : Word) :
    (off = 0xC4 ∧ b.hostWrite off w v = { b with status := statusAfterWrite b.status v })
    ∨ (off ≠ 0xC4 ∧ b.busy = true ∧ b.hostWrite off w v = { b with status := setBit b.status bitEBusy true })
    ∨ (off = 0xC0 ∧ b.busy = false ∧ b.hostWrite off w v = b.issue v)
    ∨ (off = 0xC8 ∧ b.busy = false ∧ b.hostWrite off w v = { b with fbctl := fbctlAfterWrite b.fbctl v })
    ∨ (off ≠ 0xC4 ∧ off ≠ 0xC0 ∧ off ≠ 0xC8 ∧ b.busy = false
        ∧ b.hostWrite off w v = b.writeBytes off.toNat (lanes w v)) := by
  by_cases h4 : off = 0xC4
  · exact .inl ⟨h4, by simp [Block.hostWrite, h4]⟩
  · cases hb : b.busy
    · by_cases h0 : off = 0xC0
      · exact .inr (.inr (.inl ⟨h0, rfl, by simp [Block.hostWrite, h0, hb]⟩))
      · by_cases h8 : off = 0xC8
        · exact .inr (.inr (.inr (.inl ⟨h8, rfl, by simp [Block.hostWrite, h8, hb]⟩)))
        · refine .inr (.inr (.inr (.inr ⟨h4, h0, h8, rfl, ?_⟩)))
          simp only [Block.hostWrite, if_neg h4, hb, if_neg h0, if_neg h8, Bool.false_eq_true, if_false]
    · refine .inr (.inl ⟨h4, rfl, ?_⟩)
      simp only [Block.hostWrite, if_neg h4, hb, if_true]
      rfl

/-- What one host step does to the block: nothing, a legal write, or a reset (20_memory.md R53, R55, R57). -/
theorem hostTurn_block (s : State) :
    (hostTurn s).block = s.block
    ∨ (∃ off w v rest, s.host.inputs = .write off w v :: rest ∧ legal off w = true
        ∧ (hostTurn s).block = s.block.hostWrite off w v)
    ∨ (∃ rest, s.host.inputs = .reset :: rest ∧ (hostTurn s).block = Block.reset) := by
  have key : ∀ u : State, u.block = s.block → u.host = s.host →
      (hostStep u).block = s.block
      ∨ (∃ off w v rest, s.host.inputs = .write off w v :: rest ∧ legal off w = true
          ∧ (hostStep u).block = s.block.hostWrite off w v)
      ∨ (∃ rest, s.host.inputs = .reset :: rest ∧ (hostStep u).block = Block.reset) := by
    intro u hb hh
    have hread : ∀ off w name (z : State), (hostRead off w name z).block = z.block := by
      intro off w name z
      simp only [hostRead]
      split <;> rfl
    unfold hostStep
    split
    · exact .inl hb
    · rename_i off w v rest hin
      rw [hh] at hin
      cases hl : legal off w
      · refine .inl ?_
        simp only [hostWrite, hl, Bool.not_false, if_true]
        exact hb
      · refine .inr (.inl ⟨off, w, v, rest, hin, hl, ?_⟩)
        rw [← hb]
        simp only [hostWrite, hl, Bool.not_true, Bool.false_eq_true, if_false]
        split <;> rfl
    · refine .inl ?_
      rw [hread]
      exact hb
    · refine .inl ?_
      rw [hread]
      split <;> exact hb
    · rename_i rest hin
      rw [hh] at hin
      exact .inr (.inr ⟨rest, hin, rfl⟩)
  unfold hostTurn
  split
  · exact key _ rfl rfl
  · exact key _ rfl rfl

/-- No host step clears the busfault record (20_memory.md R57). -/
theorem hostTurn_busFault (s : State) (h : s.host.busFault = true) : (hostTurn s).host.busFault = true := by
  have hread : ∀ off w name (z : State), z.host.busFault = true → (hostRead off w name z).host.busFault = true := by
    intro off w name z hz
    simp only [hostRead]
    split
    · rfl
    · exact hz
  have hwrite : ∀ off w v (z : State), z.host.busFault = true → (hostWrite off w v z).host.busFault = true := by
    intro off w v z hz
    simp only [hostWrite]
    split
    · rfl
    · split <;> exact hz
  have key : ∀ u : State, u.host.busFault = true → (hostStep u).host.busFault = true := by
    intro u hu
    unfold hostStep
    split
    · exact hu
    · exact hwrite _ _ _ _ hu
    · exact hread _ _ _ _ hu
    · refine hread _ _ _ _ ?_
      split <;> exact hu
    · exact hu
  unfold hostTurn
  split <;> exact key _ h

/-- A string of four bytes as a number. -/
theorem beUint_four (a b c d : Byte) :
    beUint [a, b, c, d] = a.toNat * 16777216 + b.toNat * 65536 + c.toNat * 256 + d.toNat := by
  simp only [beUint, List.length_cons, List.length_nil]
  norm_num
  ring

/-- The four lanes of a 32-bit write read back as the word (20_memory.md R52). -/
theorem beUint_lanes (v : Word) :
    BitVec.ofNat 32 (beUint [v.extractLsb' 24 8, v.extractLsb' 16 8, v.extractLsb' 8 8, v.extractLsb' 0 8]) = v := by
  rw [beUint_four]
  apply BitVec.eq_of_toNat_eq
  have := v.isLt
  simp only [BitVec.toNat_ofNat, BitVec.extractLsb'_toNat, Nat.shiftRight_eq_div_pow]
  omega

/-- An offset below CMD is none of the three 32-bit registers. -/
theorem offset_below_cmd (off : BitVec 8) (h : off.toNat < 0xC0) : off ≠ 0xC4 ∧ off ≠ 0xC0 ∧ off ≠ 0xC8 := by
  refine ⟨?_, ?_, ?_⟩ <;>
    (rintro rfl; exact absurd h (by decide))

/-- A write below CMD while idle writes bytes (20_memory.md R52). -/
theorem hostWrite_of_byteRegister (b : Block) (off : BitVec 8) (w : Nat) (v : Word) (hb : b.busy = false)
    (h : off.toNat < 0xC0) : b.hostWrite off w v = b.writeBytes off.toNat (lanes w v) := by
  obtain ⟨h4, h0, h8⟩ := offset_below_cmd off h
  simp only [Block.hostWrite, if_neg h4, if_neg h0, if_neg h8, hb, Bool.false_eq_true, if_false]

/-- An 8-bit read below CMD (20_memory.md R54). -/
theorem readValue_eight (b : Block) (k : Nat) (off : BitVec 8) (h : off.toNat < 0xC0) :
    b.readValue k off 8 = (b.readByte (Config.drawByte k) off.toNat).setWidth 32 := by
  obtain ⟨h4, h0, h8⟩ := offset_below_cmd off h
  simp only [Block.readValue, if_neg h4, if_neg h0, if_neg h8, if_true]

/-- A 32-bit read below CMD (20_memory.md R54). -/
theorem readValue_word (b : Block) (k : Nat) (off : BitVec 8) (h : off.toNat < 0xC0) :
    b.readValue k off 32 = BitVec.ofNat 32 (beUint
      [b.readByte (Config.drawByte k) off.toNat, b.readByte (Config.drawByte (k + 1)) (off.toNat + 1),
       b.readByte (Config.drawByte (k + 2)) (off.toNat + 2), b.readByte (Config.drawByte (k + 3)) (off.toNat + 3)]) := by
  obtain ⟨h4, h0, h8⟩ := offset_below_cmd off h
  simp only [Block.readValue, if_neg h4, if_neg h0, if_neg h8]
  rfl

/-- While idle, byte writes leave every other byte (20_memory.md R52). -/
theorem readByte_writeBytes_other (b : Block) (a : Nat) (xs : Bytes) (a' : Nat) (d : Byte) (hb : b.busy = false)
    (h : a' < a ∨ a + xs.length ≤ a') : (b.writeBytes a xs).readByte d a' = b.readByte d a' := by
  induction xs generalizing a b with
  | nil => rfl
  | cons x xs ih =>
    simp only [List.length_cons] at h
    rw [Block.writeBytes, ih _ _ (by rw [writeByte_busy, hb]) (by omega),
      readByte_writeByte_other _ _ _ _ _ hb (by omega)]

end Sys2Proof.Machine
end

