-- ==== Sys2Proof/Laws/Step.lean ====
section
/-! SUPPORT. What a step can do, said once: the engine completes the pending word, or the host takes an input
(20_memory.md R64); and what a command's completion leaves of STATUS, FBCTL, KEY and IR. -/

namespace Sys2Proof.Machine

/-- When the engine moves (30_encoding.md R88, R89). -/
theorem engineTurn_eq_some (s : State) (c : Word) :
    s.engineTurn = some c ↔
      s.block.busy = true ∧ s.block.pend = some c ∧ (s.delay = 0 ∨ s.host.inputs = []) := by
  simp only [State.engineTurn]
  split
  · rename_i h
    simp only [Bool.and_eq_true, Bool.or_eq_true, beq_iff_eq, List.isEmpty_iff] at h
    exact ⟨fun e => ⟨h.1, e, h.2⟩, fun e => e.2.1⟩
  · rename_i h
    simp only [Bool.and_eq_true, Bool.or_eq_true, beq_iff_eq, List.isEmpty_iff] at h
    constructor
    · intro e; cases e
    · rintro ⟨a, -, b⟩; exact absurd ⟨a, b⟩ h

/-- One step is a completion of a decoded word, of an ILLEGAL word, or a host step. -/
theorem step_cases (s t : State) (h : step s = .next t) :
    (∃ c, s.engineTurn = some c ∧ ((∃ i, decode c = some i ∧ exec i s = .next t)
        ∨ (decode c = none ∧ t = { s with block := s.block.finish (.error .eIll) })))
    ∨ (s.engineTurn = none ∧ t = hostTurn s) := by
  unfold step at h
  split at h
  · rename_i c hc
    refine .inl ⟨c, hc, ?_⟩
    split at h
    · rename_i i hi
      exact .inl ⟨i, hi, h⟩
    · rename_i hn
      injection h with h
      exact .inr ⟨hn, h.symm⟩
  · rename_i hn
    injection h with h
    exact .inr ⟨hn, h.symm⟩

/-- The six shapes of a completion, before DONE is set and BUSY cleared: an error bit; a restart of the pass by KEYLOAD or
SINIT; a full stream block; a short one; or a command that leaves STATUS and FBCTL. KEY is kept by all, IR is written by
DECODE only. -/
theorem exec_shape (i : Instr) (s t : State) (h : exec i s = .next t) :
    t.host = s.host ∧ t.delay = s.delay ∧ t.freeIdx = s.freeIdx ∧ ∃ b' : Block, t.block = b'.release
      ∧ b'.key = s.block.key
      ∧ (b'.ir = s.block.ir ∨ b'.ir = sintReg (((s.block.opA : Int) - s.block.noise) / 1000))
      ∧ ((∃ k, 9 ≤ k ∧ k ≤ 11 ∧ b' = { s.block with status := setBit s.block.status k true })
        ∨ (i = .keyload ∧ b'.status = setBit (setBit s.block.status bitSclosed false) bitKeyv true
            ∧ b'.fbctl = fbctlWith s.block.fbctl false 0#5)
        ∨ (i = .sinit ∧ b'.status = setBit s.block.status bitSclosed false
            ∧ b'.fbctl = fbctlWith s.block.fbctl false 0#5)
        ∨ (∃ n, 32 ≤ n ∧ (i = .senc n ∨ i = .sdec n) ∧ b'.status = s.block.status
            ∧ b'.fbctl = fbctlWith s.block.fbctl true 16#5)
        ∨ (∃ n, n < 32 ∧ (i = .senc n ∨ i = .sdec n) ∧ b'.status = setBit s.block.status bitSclosed true
            ∧ b'.fbctl = s.block.fbctl)
        ∨ (b'.status = s.block.status ∧ b'.fbctl = s.block.fbctl)) := by
  have key : ∀ r, completeWith r s = .next t → t = { s with block := s.block.finish r } := by
    intro r hr
    rw [completeWith_next] at hr
    injection hr with hr
    exact hr.symm
  have er : ∀ (f : Fault) (k : Nat), f.statusBit = some k → s.block.finish (.error f) =
      Block.release { s.block with status := setBit s.block.status k true } := by
    intro f k hf
    rw [finish_error, recordFault_eq _ _ _ hf]
  have nokey : ∀ r, s.block.keyv = false → s.block.finish (requireKey s.block r) =
      Block.release { s.block with status := setBit s.block.status 9 true } := by
    intro r hk
    rw [requireKey_of_not_keyv _ _ hk, er .eNokey 9 rfl]
  have wr : ∀ r : Int, ∃ b', s.block.finish (writeEr s.block r) = Block.release b' ∧ b'.key = s.block.key
      ∧ b'.ir = s.block.ir ∧ (b' = { s.block with status := setBit s.block.status 11 true }
        ∨ (b'.status = s.block.status ∧ b'.fbctl = s.block.fbctl)) := by
    intro r
    rcases writeEr_cases s.block r with ⟨-, -, e⟩ | ⟨-, e⟩
    · exact ⟨{ s.block with er := uintReg r.toNat }, by rw [e, finish_ok], rfl, rfl, .inr ⟨rfl, rfl⟩⟩
    · exact ⟨{ s.block with status := setBit s.block.status 11 true }, by rw [e, er .eOvf 11 rfl], rfl, rfl, .inl rfl⟩
  have wr' : ∀ r : Int, t = { s with block := s.block.finish (writeEr s.block r) } →
      t.host = s.host ∧ t.delay = s.delay ∧ t.freeIdx = s.freeIdx ∧ ∃ b' : Block, t.block = b'.release
      ∧ b'.key = s.block.key ∧ b'.ir = s.block.ir
      ∧ (b' = { s.block with status := setBit s.block.status 11 true }
        ∨ (b'.status = s.block.status ∧ b'.fbctl = s.block.fbctl)) := by
    rintro r rfl
    obtain ⟨b', h1, h2, h3, h4⟩ := wr r
    exact ⟨rfl, rfl, rfl, b', h1, h2, h3, h4⟩
  cases i with
  | nop =>
    obtain rfl := key _ h
    exact ⟨rfl, rfl, rfl, s.block, rfl, rfl, .inl rfl, .inr (.inr (.inr (.inr (.inr ⟨rfl, rfl⟩))))⟩
  | keyload =>
    obtain rfl := key _ h
    exact ⟨rfl, rfl, rfl, keyloadRule s.block, rfl, rfl, .inl rfl, .inr (.inl ⟨rfl, rfl, rfl⟩)⟩
  | sinit =>
    obtain rfl := key _ h
    exact ⟨rfl, rfl, rfl, s.block.startPass, rfl, rfl, .inl rfl, .inr (.inr (.inl ⟨rfl, rfl, rfl⟩))⟩
  | gen len =>
    obtain rfl := key _ h
    refine ⟨rfl, rfl, rfl, ?_⟩
    cases hk : s.block.keyv
    · exact ⟨_, nokey _ hk, rfl, .inl rfl, .inl ⟨9, by omega, by omega, rfl⟩⟩
    · exact ⟨genRule Config.ksgCore (effLen len) s.block, by rw [requireKey_of_keyv _ _ hk, finish_ok], rfl, .inl rfl,
        .inr (.inr (.inr (.inr (.inr ⟨rfl, rfl⟩))))⟩
  | senc len =>
    obtain rfl := key _ h
    refine ⟨rfl, rfl, rfl, ?_⟩
    cases hk : s.block.keyv
    · exact ⟨_, nokey _ hk, rfl, .inl rfl, .inl ⟨9, by omega, by omega, rfl⟩⟩
    · cases hs : s.block.sclosed
      · by_cases hl : 32 ≤ len
        · have he : effLen len = 32 := by rw [effLen_eq]; omega
          refine ⟨sencRule Config.ksgCore 32 s.block, ?_, ?_, .inl ?_, .inr (.inr (.inr (.inl ⟨len, hl, .inl rfl, ?_, ?_⟩)))⟩
          · dsimp only
            rw [requireKey_of_keyv _ _ hk, requireOpen_of_open _ _ hs, finish_ok, he]
          all_goals rw [sencRule_full]
        · have he : effLen len = len := by rw [effLen_eq]; omega
          have hl' : len < 32 := by omega
          refine ⟨sencRule Config.ksgCore len s.block, ?_, ?_, .inl ?_,
            .inr (.inr (.inr (.inr (.inl ⟨len, hl', .inl rfl, ?_, ?_⟩))))⟩
          · dsimp only
            rw [requireKey_of_keyv _ _ hk, requireOpen_of_open _ _ hs, finish_ok, he]
          all_goals rw [sencRule_short _ _ _ hl']
      · refine ⟨{ s.block with status := setBit s.block.status 10 true }, ?_, rfl, .inl rfl,
          .inl ⟨10, by omega, by omega, rfl⟩⟩
        dsimp only
        rw [requireKey_of_keyv _ _ hk, requireOpen_of_closed _ _ hs, er .eSeq 10 rfl]
  | sdec len =>
    obtain rfl := key _ h
    refine ⟨rfl, rfl, rfl, ?_⟩
    cases hk : s.block.keyv
    · exact ⟨_, nokey _ hk, rfl, .inl rfl, .inl ⟨9, by omega, by omega, rfl⟩⟩
    · cases hs : s.block.sclosed
      · by_cases hl : 32 ≤ len
        · have he : effLen len = 32 := by rw [effLen_eq]; omega
          refine ⟨sdecRule Config.ksgCore 32 s.block, ?_, ?_, .inl ?_, .inr (.inr (.inr (.inl ⟨len, hl, .inr rfl, ?_, ?_⟩)))⟩
          · dsimp only
            rw [requireKey_of_keyv _ _ hk, requireOpen_of_open _ _ hs, finish_ok, he]
          all_goals rw [sdecRule_full]
        · have he : effLen len = len := by rw [effLen_eq]; omega
          have hl' : len < 32 := by omega
          refine ⟨sdecRule Config.ksgCore len s.block, ?_, ?_, .inl ?_,
            .inr (.inr (.inr (.inr (.inl ⟨len, hl', .inr rfl, ?_, ?_⟩))))⟩
          · dsimp only
            rw [requireKey_of_keyv _ _ hk, requireOpen_of_open _ _ hs, finish_ok, he]
          all_goals rw [sdecRule_short _ _ _ hl']
      · refine ⟨{ s.block with status := setBit s.block.status 10 true }, ?_, rfl, .inl rfl,
          .inl ⟨10, by omega, by omega, rfl⟩⟩
        dsimp only
        rw [requireKey_of_keyv _ _ hk, requireOpen_of_closed _ _ hs, er .eSeq 10 rfl]
  | encode =>
    have e := key _ h
    cases hk : s.block.keyv
    · rw [nokey _ hk] at e
      subst e
      exact ⟨rfl, rfl, rfl, _, rfl, rfl, .inl rfl, .inl ⟨9, by omega, by omega, rfl⟩⟩
    · rw [requireKey_of_keyv _ _ hk] at e
      obtain ⟨h1, h2, h3, b', h4, h5, h6, h7⟩ := wr' _ e
      refine ⟨h1, h2, h3, b', h4, h5, .inl h6, ?_⟩
      rcases h7 with h7 | h7
      · exact .inl ⟨11, by omega, by omega, h7⟩
      · exact .inr (.inr (.inr (.inr (.inr h7))))
  | decode =>
    obtain rfl := key _ h
    refine ⟨rfl, rfl, rfl, ?_⟩
    cases hk : s.block.keyv
    · exact ⟨_, nokey _ hk, rfl, .inl rfl, .inl ⟨9, by omega, by omega, rfl⟩⟩
    · exact ⟨decodeRule s.block, by rw [requireKey_of_keyv _ _ hk, finish_ok], rfl, .inr rfl,
        .inr (.inr (.inr (.inr (.inr ⟨rfl, rfl⟩))))⟩
  | add =>
    obtain ⟨h1, h2, h3, b', h4, h5, h6, h7⟩ := wr' _ (key _ h)
    refine ⟨h1, h2, h3, b', h4, h5, .inl h6, ?_⟩
    rcases h7 with h7 | h7
    · exact .inl ⟨11, by omega, by omega, h7⟩
    · exact .inr (.inr (.inr (.inr (.inr h7))))
  | scale =>
    obtain ⟨h1, h2, h3, b', h4, h5, h6, h7⟩ := wr' _ (key _ h)
    refine ⟨h1, h2, h3, b', h4, h5, .inl h6, ?_⟩
    rcases h7 with h7 | h7
    · exact .inl ⟨11, by omega, by omega, h7⟩
    · exact .inr (.inr (.inr (.inr (.inr h7))))

end Sys2Proof.Machine
end

