-- ==== Sys2Proof/Laws/Stream.lean ====
section
/-! SUPPORT. The payload split (41_stream.md R135), the loading of a block, and what the stream and encoder commands leave
when their guards are met. -/

namespace Sys2Proof.Machine

/-- The split of a nonempty payload takes 32 bytes off its front (41_stream.md R135). -/
theorem payloadBlocks_cons (P : Bytes) (h : P ≠ []) : payloadBlocks P = P.take 32 :: payloadBlocks (P.drop 32) := by
  have hp : 0 < P.length := List.length_pos_iff.2 h
  have hn : (P.length + 31) / 32 = ((P.drop 32).length + 31) / 32 + 1 := by
    rw [List.length_drop]; omega
  unfold payloadBlocks
  rw [hn, List.range_succ_eq_map, List.map_cons, List.map_map]
  congr 1
  · simp only [slice, Nat.mul_zero, List.drop_zero, Nat.zero_add, Nat.sub_zero]
    by_cases hl : P.length ≤ 32
    · rw [Nat.min_eq_right hl, List.take_length, List.take_of_length_le hl]
    · rw [Nat.min_eq_left (by omega)]
  · apply List.map_congr_left
    intro i _
    simp only [Function.comp, slice, List.length_drop, List.drop_drop]
    congr 1
    · omega
    · congr 1; omega

/-- An empty payload has no block (41_stream.md R137). -/
theorem payloadBlocks_nil : payloadBlocks [] = [] := rfl

/-- Bytes written into BLK_IN replace exactly the bytes they are written over (20_memory.md R52). -/
theorem writeBytes_blkIn (xs : Bytes) (b : Block) (k : Nat) (h : k + xs.length ≤ 32) :
    ∃ v : Vector Byte 32, b.writeBytes (0x20 + k) xs = { b with blkIn := v }
      ∧ v.toList = b.blkIn.toList.take k ++ xs ++ b.blkIn.toList.drop (k + xs.length) := by
  induction xs generalizing b k with
  | nil => exact ⟨b.blkIn, rfl, by simp⟩
  | cons x xs ih =>
    simp only [List.length_cons] at h
    have hx : b.writeByte (0x20 + k) x = { b with blkIn := b.blkIn.setIfInBounds k x } := by
      unfold Block.writeByte
      rw [if_neg (by omega), if_pos (by omega)]; congr 2; omega
    obtain ⟨v, e, hv⟩ := ih { b with blkIn := b.blkIn.setIfInBounds k x } (k+1) (by omega)
    refine ⟨v, ?_, ?_⟩
    · rw [Block.writeBytes, hx, show 0x20 + k + 1 = 0x20 + (k+1) by omega, e]
    · rw [hv]
      simp only [setIfInBounds_toList, List.length_cons]
      have hlen : b.blkIn.toList.length = 32 := by simp
      generalize b.blkIn.toList = l at hlen
      rw [List.take_set, List.drop_set_of_lt (by omega), ← List.take_append_getElem (show k < l.length by omega)]
      rw [List.set_append_right _ _ (by rw [List.length_take]; omega)]
      rw [List.length_take, Nat.min_eq_left (show k ≤ l.length by omega), Nat.sub_self]
      simp
      congr 1; omega

/-- A block put into BLK_IN stands at its front (30_encoding.md R94). -/
theorem writeBytes_blkIn_front (xs : Bytes) (b : Block) (h : xs.length ≤ 32) :
    ∃ v : Vector Byte 32, b.writeBytes 0x20 xs = { b with blkIn := v } ∧ v.toList.take xs.length = xs := by
  obtain ⟨v, e, hv⟩ := writeBytes_blkIn xs b 0 (by omega)
  exact ⟨v, e, by rw [hv]; simp⟩

/-- A completion's end keeps KEYV. -/
theorem keyv_release (b : Block) : b.release.keyv = b.keyv := by
  rw [Block.keyv, getLsbD_release_status _ _ (by decide)]
  rfl

/-- A completion's end keeps SCLOSED. -/
theorem sclosed_release (b : Block) : b.release.sclosed = b.sclosed := by
  rw [Block.sclosed, getLsbD_release_status _ _ (by decide)]
  rfl

/-- The feedback operand after a full block (41_stream.md R130). -/
theorem fbop_of_full (b : Block) (fc : Word) (KS : Bytes) (h : 16 ≤ KS.length) (hfb : b.fb = pad (KS.take 16) 16)
    (hfc : b.fbctl = fbctlWith fc true 16#5) : b.fbop = some (KS.take 16) := by
  have h1 : b.fbv = true := by rw [Block.fbv, hfc, fbv_fbctlWith]
  have h2 : b.fblen = 16 := by rw [Block.fblen, hfc, fblenField_fbctlWith]; rfl
  rw [Block.fbop, if_pos h1, h2, hfb, slice_zero, pad_toList]
  simp [h, List.take_take]

/-- SENC with a key and an open pass (41_stream.md R132). -/
theorem exec_senc_of_guards (s : State) (len : Nat) (hk : s.block.keyv = true) (ho : s.block.sclosed = false) :
    exec (.senc len) s = .next { s with block := (sencRule Config.ksgCore (effLen len) s.block).release } := by
  show execSenc len s = _
  rw [execSenc, requireKey_of_keyv _ _ hk, requireOpen_of_open _ _ ho, completeWith_next, finish_ok]

/-- SDEC with a key and an open pass (41_stream.md R133). -/
theorem exec_sdec_of_guards (s : State) (len : Nat) (hk : s.block.keyv = true) (ho : s.block.sclosed = false) :
    exec (.sdec len) s = .next { s with block := (sdecRule Config.ksgCore (effLen len) s.block).release } := by
  show execSdec len s = _
  rw [execSdec, requireKey_of_keyv _ _ hk, requireOpen_of_open _ _ ho, completeWith_next, finish_ok]

/-- ENCODE with a key, by its exact result (42_encoder.md R163). -/
theorem exec_encode_of_key (s : State) (hk : s.block.keyv = true) :
    exec .encode s = .next { s with
      block := s.block.finish (writeEr s.block (s.block.opV * 1000 + s.block.noise)) } := by
  show execEncode s = _
  rw [execEncode, requireKey_of_keyv _ _ hk, completeWith_next]
  rfl

/-- DECODE with a key (42_encoder.md R164). -/
theorem exec_decode_of_key (s : State) (hk : s.block.keyv = true) :
    exec .decode s = .next { s with block := (decodeRule s.block).release } := by
  show execDecode s = _
  rw [execDecode, requireKey_of_keyv _ _ hk, completeWith_next, finish_ok]

end Sys2Proof.Machine
end

