-- ==== Sys2Proof/Tests/Slice0.lean ====
section
/-! SUPPORT. Tests: expected values are the vectors of spec/95_test_vectors.md (section in each docstring) or hand
calculation from a rule; and, for every statement with hypotheses, a concrete state and operands that meet them. -/

namespace Sys2Proof.Tests

open Sys2Proof.Machine Sys2Proof.Claims

/-! ## Helpers -/

/-- Whether an outcome is a next state that satisfies `p`. -/
def leads (o : Host.Outcome State Fault Refusal) (p : State → Bool) : Bool :=
  match o with
  | .next t => p t
  | .fault _ => false
  | .refused _ => false

theorem leads_next (o : Host.Outcome State Fault Refusal) (p : State → Bool) (h : leads o p = true) :
    ∃ t, o = .next t ∧ p t = true := by
  cases o with
  | next t => exact ⟨t, rfl, h⟩
  | fault _ => cases h
  | refused _ => cases h

/-- The machine after reset but for STATUS and the first key bytes. -/
def start (st : Word) (key : Bytes) : State :=
  { State.reset with block := { Block.reset with status := st, key := pad key 32 } }

/-- The machine with EA, EB and IV reading as given. -/
def scalars (s : State) (a b : Nat) (v : Int) : State :=
  { s with block := { s.block with ea := uintReg a, eb := uintReg b, iv := sintReg v } }

/-- The machine with these inputs still to come. -/
def facing (s : State) (l : List Input) : State := s.withInputs l

/-- The machine with a command pending, some idle steps and inputs to come. -/
def pending (s : State) (c : Word) (d : Nat) (l : List Input) : State := { (s.pendNow c).withInputs l with delay := d }

/-- `KSG_TEST` (section 0): a test configuration, not the hardware's generator. -/
def ksgTest : Config.Ksg := fun seed X F =>
  pad ((List.range 32).map fun j =>
    X.toList.getD j 0 + BitVec.ofNat 8 (seed.toNat / 256 ^ (7 - j % 8))
      + (match F with | none => 0 | some G => 1 + G.toList.getD (j % 16) 0)) 32

/-- Key `K1` (section 2). -/
def k1 : Bytes := (List.range 32).map (BitVec.ofNat 8)

/-- A keyed block, BLK_IN starting with `x`, feedback as given. -/
def keyedBlock (x : Bytes) (fb : Bytes) (fbctl : Word) : Block :=
  { Block.reset with key := pad k1 32, status := 0x00000006, blkIn := pad x 32, fb := pad fb 16, fbctl := fbctl }

/-- The bytes 41 42 .. 48. -/
def abc : Bytes := [0x41, 0x42, 0x43, 0x44, 0x45, 0x46, 0x47, 0x48]

/-- Ciphertext block C_0 of section 2.5, one period. -/
def c0 : Bytes := [0x00, 0x03, 0x02, 0x05, 0x04, 0x07, 0x06, 0x09]

/-! ## WellFormed: each check has an ill-formed term it refuses (30_encoding.md R90) -/

theorem test_wf_refuses_gen_64 : (Instr.gen 64).wf = false := by decide
theorem test_wf_refuses_senc_64 : (Instr.senc 64).wf = false := by decide
theorem test_wf_refuses_sdec_64 : (Instr.sdec 64).wf = false := by decide
theorem test_wf_accepts_63 : (Instr.gen 63).wf = true ∧ (Instr.senc 63).wf = true ∧ (Instr.sdec 63).wf = true := by decide

/-! ## Decode: words written bit by bit from the patterns of 30_encoding.md R84 -/

theorem test_decode_nop : decode 0b000000000000000000_000000_00000000 = some .nop := by decide
theorem test_decode_keyload : decode 0b000000000000000000_000000_00000001 = some .keyload := by decide
theorem test_decode_gen : decode 0b000000000000000000_000011_00000010 = some (.gen 3) := by decide
theorem test_decode_sinit : decode 0b000000000000000000_000000_00000011 = some .sinit := by decide
theorem test_decode_senc : decode 0b000000000000000000_101000_00000100 = some (.senc 40) := by decide
theorem test_decode_sdec : decode 0b000000000000000000_001000_00000101 = some (.sdec 8) := by decide
theorem test_decode_encode : decode 0b000000000000000000_000000_00001000 = some .encode := by decide
theorem test_decode_decode : decode 0b000000000000000000_000000_00001001 = some .decode := by decide
theorem test_decode_add : decode 0b000000000000000000_000000_00001010 = some .add := by decide
theorem test_decode_scale : decode 0b000000000000000000_000000_00001011 = some .scale := by decide

/-- Section 2.2, the ILLEGAL words. -/
theorem test_decode_illegal :
    decode 0x00000101 = none ∧ decode 0x00000006 = none ∧ decode 0x00000007 = none ∧ decode 0x0000000C = none
      ∧ decode 0x000000FF = none ∧ decode 0x00004004 = none ∧ decode 0x80000008 = none ∧ decode 0x00000106 = none := by
  decide

theorem test_decodeTableWord : decodeTableWord 32 0x00003F02 = some (.gen 63) ∧ decodeTableWord 32 0x4004 = none := by
  decide

/-- A host step runs exactly the placed word, straight after reset: ADD, then ENCODE without a key (section 2.7). -/
theorem test_withFetchWord :
    leads (step (State.reset.withFetchWord 32 0x0A)) (fun t => t.block.status == 0x00000002) = true
      ∧ leads (step (State.reset.withFetchWord 32 0x08)) (fun t => t.block.status == 0x00000202) = true := by decide

/-! ## The window (section 2.1) -/

theorem test_write_word_read_byte :
    (Block.reset.hostWrite 0x80 32 0x11223344).ea.toList = [0x11, 0x22, 0x33, 0x44, 0, 0, 0, 0]
      ∧ (Block.reset.hostWrite 0x80 32 0x11223344).readValue 0 0x81 8 = 0x22 := by decide

theorem test_blk_out_is_read_only : Block.reset.hostWrite 0x40 32 0xFFFFFFFF = Block.reset := by decide

theorem test_key_write :
    (Block.reset.hostWrite 0x00 32 0xAABBCCDD).key.toList.take 5 = [0xAA, 0xBB, 0xCC, 0xDD, 0]
      ∧ (Block.reset.hostWrite 0x00 32 0xAABBCCDD).readValue 0 0x00 32 = 0 := by decide

theorem test_busfaults :
    legal 0x70 32 = false ∧ legal 0x22 32 = false ∧ legal 0xC4 8 = false ∧ legal 0xC1 32 = false ∧ legal 0x00 16 = false := by
  decide

theorem test_fbctl_clamp : (Block.reset.hostWrite 0xC8 32 0x00001F01).fbctl = 0x00001001 := by decide

theorem test_er_halves :
    (scalars State.reset 0 0 0).block.readValue 0 0x90 32 = 0
      ∧ (Block.readValue { Block.reset with er := uintReg 25000 } 0 0x94 32) = 0x000061A8 := by decide

/-- Section 3, program L3-5, with DONE set by the ADD before: `WR8 0x20, 0x55` and `WR32 0xC0, 3` before completion. -/
theorem test_write_while_busy :
    leads (step (pending (start 2 []) 0 2 [.write 0x20 8 0x55])) (fun t => t.block.status == 0x00001003
      && t.block.blkIn == Block.reset.blkIn) = true
    ∧ leads (step (pending (start 2 []) 0 2 [.write 0xC0 32 3])) (fun t => t.block.status == 0x00001003
      && t.block.pend == some 0) = true := by decide

/-- A reset while BUSY = 1 (70_reset_and_hazards.md R231). -/
theorem test_reset_event :
    leads (step (pending State.reset 1 2 [.reset])) (fun t => t.block == Block.reset && t.host.inputs == []) = true := by
  decide

/-- A busfault is answered and recorded (20_memory.md R57). -/
theorem test_busfault_recorded :
    leads (step (facing State.reset [.read 0x70 32 ['x']])) (fun t => t.host.busFault && t.block == Block.reset
      && t.host.replies == [.busError 0x70]) = true := by decide

/-! ## Commands (sections 2.3 to 2.7) -/

theorem test_nop : leads (exec .nop (start 0x04 [])) (fun t => t.block.status == 0x06) = true := by decide

/-- Section 2.3, row K1: SEED and NOISE 51, and the pass restarted from an open feedback. -/
theorem test_keyload :
    leads (exec .keyload (start 0x08 k1)) (fun t => t.block.status == 0x06 && t.block.seed == 0x0001020304050607
      && t.block.noise == 51) = true := by decide

theorem test_keyload_restarts :
    leads (exec .keyload { State.reset with block := keyedBlock [] abc 0x00001001 }) (fun t => t.block.fbctl == 0
      && t.block.fb == Block.reset.fb) = true := by decide

/-- Section 2.4: a short block, without and with (empty) feedback. -/
theorem test_gen_short :
    (genRule ksgTest 3 (keyedBlock [0x41, 0x42, 0x43] [] 0)).blkOut.toList.take 5 = [0x41, 0x43, 0x45, 0, 0]
      ∧ (genRule ksgTest 3 (keyedBlock [0x41, 0x42, 0x43] [] 1)).blkOut.toList.take 5 = [0x42, 0x44, 0x46, 0, 0] := by
  decide

/-- Section 2.4: a full block with feedback 00 .. 0F; GEN 0. -/
theorem test_gen_feedback :
    (genRule ksgTest 32 (keyedBlock (List.replicate 32 0x41) (k1.take 16) 0x00001001)).blkOut.toList.take 16 =
        [0x42, 0x44, 0x46, 0x48, 0x4A, 0x4C, 0x4E, 0x50, 0x4A, 0x4C, 0x4E, 0x50, 0x52, 0x54, 0x56, 0x58]
      ∧ (genRule ksgTest 0 (keyedBlock k1 [] 0)).blkOut = Block.reset.blkOut := by decide

/-- 41_stream.md R131, its example. -/
theorem test_sinit :
    leads (exec .sinit { State.reset with block := { keyedBlock [] abc 0x00001001 with status := 0x0E } })
      (fun t => t.block.status == 0x06 && t.block.fbctl == 0 && t.block.fb == Block.reset.fb) = true := by decide

/-- Section 2.5, row SENC 32. -/
theorem test_senc_full :
    (sencRule ksgTest 32 (keyedBlock (List.replicate 32 0x41) [] 0)).blkOut.toList = c0 ++ c0 ++ c0 ++ c0
      ∧ (sencRule ksgTest 32 (keyedBlock (List.replicate 32 0x41) [] 0)).fb.toList = abc ++ abc
      ∧ (sencRule ksgTest 32 (keyedBlock (List.replicate 32 0x41) [] 0)).fbctl = 0x00001001 := by decide

/-- Section 2.5, row "then SENC 8". -/
theorem test_senc_short :
    (sencRule ksgTest 8 (keyedBlock abc (abc ++ abc) 0x00001001)).blkOut.toList.take 9
        = [0xC2, 0xC4, 0xCA, 0xC8, 0xCA, 0xD4, 0xD2, 0xD0, 0]
      ∧ (sencRule ksgTest 8 (keyedBlock abc (abc ++ abc) 0x00001001)).status = 0x0000000E := by decide

/-- Section 2.5, row SDEC 32: ciphertext feedback. -/
theorem test_sdec_full :
    (sdecRule ksgTest 32 (keyedBlock (c0 ++ c0 ++ c0 ++ c0) [] 0)).blkOut.toList.take 8
        = [0x00, 0x07, 0x06, 0x0D, 0x0C, 0x0B, 0x0A, 0x19]
      ∧ (sdecRule ksgTest 32 (keyedBlock (c0 ++ c0 ++ c0 ++ c0) [] 0)).fb.toList = c0 ++ c0 := by decide

/-- Section 2.5, row "then SDEC 8". -/
theorem test_sdec_short :
    (sdecRule ksgTest 8 (keyedBlock [0xC2, 0xC4, 0xCA, 0xC8, 0xCA, 0xD4, 0xD2, 0xD0] (c0 ++ c0) 0x00001001)).blkOut.toList.take 8
      = [0x01, 0x0D, 0x05, 0x19, 0x19, 0x35, 0x0D, 0x31] := by decide

/-- Section 2.6: NOISE 234, v = 7; the largest legal v for NOISE 615. -/
theorem test_encode :
    leads (exec .encode (scalars (start 6 [0, 0, 0x04, 0xD2]) 0 0 7)) (fun t => t.block.er == uintReg 0x1C42
      && t.block.status == 6) = true
    ∧ leads (exec .encode (scalars (start 6 [0, 0, 0x02, 0x67]) 0 0 18446744073709551)) (fun t =>
      t.block.er.toList == List.replicate 8 0xFF && t.block.status == 6) = true := by decide

/-- Section 2.6: v = -1, and v one too large for NOISE 616. -/
theorem test_encode_overflow :
    leads (exec .encode (scalars (start 6 [0, 0, 0x04, 0xD2]) 0 0 (-1))) (fun t => t.block.status == 0x00000806) = true
    ∧ leads (exec .encode (scalars (start 6 [0, 0, 0x02, 0x68]) 0 0 18446744073709551)) (fun t =>
      t.block.status == 0x00000806 && t.block.er == Block.reset.er) = true := by decide

/-- Section 2.6: A = 233 with NOISE 234 gives -1; A = 2^64 - 1 with NOISE 0. -/
theorem test_decode_command :
    leads (exec .decode (scalars (start 6 [0, 0, 0x04, 0xD2]) 233 0 0)) (fun t =>
      t.block.ir.toList == List.replicate 8 0xFF && t.block.status == 6) = true
    ∧ leads (exec .decode (scalars (start 6 []) (2 ^ 64 - 1) 0 0)) (fun t =>
      t.block.ir.toList == [0x00, 0x41, 0x89, 0x37, 0x4B, 0xC6, 0xA7, 0xEF]) = true := by decide

/-- Section 2.6: 25000 + 17000; (2^64 - 1) + 1. -/
theorem test_add :
    leads (exec .add (scalars State.reset 25000 17000 0)) (fun t => t.block.er == uintReg 0xA410
      && t.block.status == 2) = true
    ∧ leads (exec .add (scalars State.reset (2 ^ 64 - 1) 1 0)) (fun t => t.block.er == Block.reset.er
      && t.block.status == 0x00000802) = true := by decide

/-- Section 2.6: 0 × -5; 2 × (2^63 - 1). -/
theorem test_scale :
    leads (exec .scale (scalars State.reset 0 0 (-5))) (fun t => t.block.status == 2) = true
    ∧ leads (exec .scale (scalars State.reset 2 0 (2 ^ 63 - 1))) (fun t =>
      t.block.er.toList == [0xFF, 0xFF, 0xFF, 0xFF, 0xFF, 0xFF, 0xFF, 0xFE]) = true := by decide

/-- Section 2.6: 7234 × -1 and 2^63 × 2. -/
theorem test_scale_overflow :
    leads (exec .scale (scalars State.reset 7234 0 (-1))) (fun t => t.block.status == 0x00000802) = true
    ∧ leads (exec .scale (scalars State.reset (2 ^ 63) 0 2)) (fun t => t.block.status == 0x00000802) = true := by decide

/-- Sections 2.5 and 2.7: E_SEQ in a closed pass; E_ILL wins over E_SEQ. -/
theorem test_errors :
    leads (exec (.senc 8) (start 0x0E k1)) (fun t => t.block.status == 0x0000040E) = true
    ∧ leads (step (pending (start 0x0C k1) 0x00004004 0 [])) (fun t => t.block.status == 0x0000010E) = true := by decide

/-! ## Assembler text (30_encoding.md R90, R91) -/

theorem test_assemble_line : assembleLine ['S', 'E', 'N', 'C', ' ', '3', '2', ' ', ';', 'x'] = some 0x00002004 := by decide

theorem test_assemble_line_refused :
    assembleLine ['G', 'E', 'N', ' ', '6', '4'] = none ∧ assembleLine ['A', 'D', 'D', ' ', '1'] = none := by decide

theorem test_host_line :
    hostProgram [['W', 'R', '8', ' ', '0', 'x', '2', '0', ',', ' ', '0', 'x', '5', '5'], ['D', 'O', ' ', 'A', 'D', 'D']]
      = some [.write 0x20 8 0x55, .write 0xC0 32 0x0A, .wait] := by decide

/-! ## Witnesses: a concrete state and operands that meet the hypotheses of each statement that has some -/

theorem test_witness_DecodeOfEncodeIsIdentity : (Instr.gen 63).wf = true ∧ (Instr.sdec 0).wf = true ∧ Instr.scale.wf = true := by
  decide

theorem test_witness_DecodedWordIsItsEncoding : decode 0x00003F04 = some (.senc 63) := by decide

theorem test_witness_DecodeFollowsMatchAndMask :
    (∃ r ∈ rows, 0x00003F02#32 &&& r.mask = r.matchWord) ∧ (∀ r ∈ rows, 0x00000C0C#32 &&& r.mask ≠ r.matchWord)
      ∧ decode 0x00000006 = none ∧ decode 0x00004004 = none ∧ decode 0x00000101 = none := by decide

theorem test_witness_EffectiveLengthIsMinOfLenAnd32 :
    (start 6 k1).block.keyv = true ∧ (start 6 k1).block.sclosed = false := by decide

/-- A completion through an idle step count of 0, and through an empty input list. -/
theorem test_witness_StepRunsDecodedCommand :
    completes (pending State.reset 0x302 0 [.reset]) 0x302 ∧ completes (pending State.reset 0x302 9 []) 0x302
      ∧ decode 0x302 = some (.gen 3) :=
  ⟨⟨by decide, rfl, by decide⟩, ⟨by decide, rfl, by decide⟩, by decide⟩

theorem test_witness_IllegalWordRecordsOnlyEIll :
    completes (pending State.reset 0x0C 0 []) 0x0C ∧ completes (pending State.reset 0x4004 0 []) 0x4004
      ∧ completes (pending State.reset 0x101 0 []) 0x101 ∧ completes (pending State.reset 0x06 0 []) 0x06 :=
  ⟨⟨by decide, rfl, by decide⟩, ⟨by decide, rfl, by decide⟩, ⟨by decide, rfl, by decide⟩, ⟨by decide, rfl, by decide⟩⟩

/-- A state with FBLEN 16 and IR = -1, its boundaries, and a command pending. -/
def atBounds : State :=
  { pending State.reset 0x09 0 [] with
    block := { (State.reset.pendNow 0x09).block with fbctl := 0x00001001, ir := sintReg (-1), ea := uintReg (2 ^ 64 - 1) } }

theorem test_witness_StepKeepsInvariant : atBounds.Inv ∧ ∃ t, step atBounds = .next t ∧ (!t.block.busy) = true :=
  ⟨⟨by decide, by decide, by decide, by decide, by decide⟩, leads_next _ (fun t => !t.block.busy) (by decide)⟩

theorem test_witness_ResetEventAbandonsPendingCommand :
    hostTakes (pending State.reset 1 3 [.reset]) .reset [] ∧ hostTakes (facing State.reset [.reset]) .reset [] :=
  ⟨⟨rfl, .inr (by decide)⟩, ⟨rfl, .inl (by decide)⟩⟩

theorem test_witness_PendingCommandCompletesInBoundedSteps :
    (pending State.reset 1 2 [.wait]).block.busy = true ∧ (pending State.reset 1 2 [.wait]).block.pend.isSome = true := by
  decide

theorem test_witness_HostStepsLeaveBusyBlockFixed :
    hostTakes (pending State.reset 1 1 [.write 0x20 8 5]) (.write 0x20 8 5) [] ∧ Input.write 0x20 8 5 ≠ .reset
      ∧ (pending State.reset 1 1 [.write 0x20 8 5]).block.busy = true :=
  ⟨⟨rfl, .inr (by decide)⟩, by decide, by decide⟩

/-- KEYV set by KEYLOAD; cleared by a KEY write at each end of KEY, and by a reset. -/
theorem test_witness_KeyvSetByKeyloadClearedByKeyWriteOrReset :
    (State.reset.block.keyv = false ∧ ∃ t, step (pending State.reset 1 0 []) = .next t ∧ t.block.keyv = true)
    ∧ (start 4 []).block.keyv = true
    ∧ (∃ t, step (facing (start 4 []) [.write 0x00 8 0]) = .next t ∧ (!t.block.keyv) = true)
    ∧ (∃ t, step (facing (start 4 []) [.write 0x1F 8 0]) = .next t ∧ (!t.block.keyv) = true)
    ∧ ∃ t, step (facing (start 4 []) [.reset]) = .next t ∧ (!t.block.keyv) = true :=
  ⟨⟨by decide, leads_next _ (fun t => t.block.keyv) (by decide)⟩, by decide,
    leads_next _ (fun t => !t.block.keyv) (by decide), leads_next _ (fun t => !t.block.keyv) (by decide),
    leads_next _ (fun t => !t.block.keyv) (by decide)⟩

/-- SCLOSED set by SENC 31 and SDEC 0; cleared by KEYLOAD, SINIT and a reset. -/
theorem test_witness_SclosedSetByShortBlockClearedByPassStart :
    (start 4 k1).block.sclosed = false
    ∧ (∃ t, step (pending (start 4 k1) 0x1F04 0 []) = .next t ∧ t.block.sclosed = true)
    ∧ (∃ t, step (pending (start 4 k1) 0x0005 0 []) = .next t ∧ t.block.sclosed = true)
    ∧ (start 8 []).block.sclosed = true
    ∧ (∃ t, step (pending (start 8 []) 1 0 []) = .next t ∧ (!t.block.sclosed) = true)
    ∧ (∃ t, step (pending (start 8 []) 3 0 []) = .next t ∧ (!t.block.sclosed) = true)
    ∧ ∃ t, step (facing (start 8 []) [.reset]) = .next t ∧ (!t.block.sclosed) = true :=
  ⟨by decide, leads_next _ (fun t => t.block.sclosed) (by decide), leads_next _ (fun t => t.block.sclosed) (by decide),
    by decide, leads_next _ (fun t => !t.block.sclosed) (by decide), leads_next _ (fun t => !t.block.sclosed) (by decide),
    leads_next _ (fun t => !t.block.sclosed) (by decide)⟩

/-- BUSY set by a CMD write, cleared by a completion and by a reset. -/
theorem test_witness_BusyFollowsIssueAndCompletion :
    (State.reset.block.busy = false ∧ ∃ t, step (facing State.reset [.write 0xC0 32 0]) = .next t ∧ t.block.busy = true)
    ∧ (pending State.reset 0 0 []).block.busy = true
    ∧ (∃ t, step (pending State.reset 0 0 []) = .next t ∧ (!t.block.busy) = true)
    ∧ (∃ t, step (pending State.reset 0 1 [.reset]) = .next t ∧ (!t.block.busy) = true)
    ∧ completes (pending State.reset 0 0 []) 0 :=
  ⟨⟨by decide, leads_next _ (fun t => t.block.busy) (by decide)⟩, by decide,
    leads_next _ (fun t => !t.block.busy) (by decide), leads_next _ (fun t => !t.block.busy) (by decide),
    ⟨by decide, rfl, by decide⟩⟩

/-- DONE set by a completion, cleared by a STATUS write and by a reset. -/
theorem test_witness_DoneFollowsCompletion :
    (pending State.reset 0 0 []).block.done = false
    ∧ (∃ t, step (pending State.reset 0 0 []) = .next t ∧ t.block.done = true)
    ∧ (start 2 []).block.done = true
    ∧ (∃ t, step (facing (start 2 []) [.write 0xC4 32 2]) = .next t ∧ (!t.block.done) = true)
    ∧ ∃ t, step (facing (start 2 []) [.reset]) = .next t ∧ (!t.block.done) = true :=
  ⟨by decide, leads_next _ (fun t => t.block.done) (by decide), by decide,
    leads_next _ (fun t => !t.block.done) (by decide), leads_next _ (fun t => !t.block.done) (by decide)⟩

/-- FBCTL changed by SENC 32 and by an FBCTL write. -/
theorem test_witness_FbctlWrittenOnlyByListedEvents :
    (∃ t, step (pending (start 4 k1) 0x2004 0 []) = .next t ∧ (t.block.fbctl != 0) = true)
    ∧ ∃ t, step (facing State.reset [.write 0xC8 32 1]) = .next t ∧ (t.block.fbctl != 0) = true :=
  ⟨leads_next _ (fun t => t.block.fbctl != 0) (by decide), leads_next _ (fun t => t.block.fbctl != 0) (by decide)⟩

/-- Both ends of each legal range, and the first offset outside. -/
theorem test_witness_LegalAccessesAreThoseOfTheRegisterMap :
    legal 0x00 8 = true ∧ legal 0x6F 8 = true ∧ legal 0x70 8 = false ∧ legal 0x80 8 = true ∧ legal 0xA7 8 = true
      ∧ legal 0xA8 8 = false ∧ legal 0x6C 32 = true ∧ legal 0x6D 32 = false ∧ legal 0xA4 32 = true ∧ legal 0xC0 32 = true
      ∧ legal 0xC4 32 = true ∧ legal 0xC8 32 = true ∧ legal 0xCC 32 = false ∧ legal 0xC8 8 = false := by decide

theorem test_witness_BusfaultChangesNoBlockStateAndStaysRecorded :
    hostTakes (facing State.reset [.write 0x70 8 1]) (.write 0x70 8 1) [] ∧ legal 0x70 8 = false
      ∧ hostTakes (pending State.reset 0 2 [.read 0xFF 32 ['x']]) (.read 0xFF 32 ['x']) [] ∧ legal 0xFF 32 = false
      ∧ ∃ t, step { facing State.reset [.reset] with host := ⟨[.reset], [], true⟩ } = .next t ∧ t.host.busFault = true :=
  ⟨⟨rfl, .inl (by decide)⟩, by decide, ⟨rfl, .inr (by decide)⟩, by decide,
    leads_next _ (fun t => t.host.busFault) (by decide)⟩

theorem test_witness_StatusWriteClearsWrittenOnesAndErrorsAreSticky :
    hostTakes (facing (start 0x1F02 []) [.write 0xC4 32 0x100]) (.write 0xC4 32 0x100) []
    ∧ hostTakes (pending (start 0x1F02 []) 0 1 [.write 0xC4 32 0xFFFFFFFF]) (.write 0xC4 32 0xFFFFFFFF) []
    ∧ (start 0x1F02 []).block.status.getLsbD 8 = true ∧ (start 0x1F02 []).block.status.getLsbD 12 = true
    ∧ (∃ t, step (facing (start 0x1F02 []) [.write 0xC4 32 0x100]) = .next t ∧ (!t.block.status.getLsbD 8) = true)
    ∧ ∃ t, step (facing (start 0x1F02 []) [.reset]) = .next t ∧ (!t.block.status.getLsbD 12) = true :=
  ⟨⟨rfl, .inl (by decide)⟩, ⟨rfl, .inr (by decide)⟩, by decide, by decide,
    leads_next _ (fun t => !t.block.status.getLsbD 8) (by decide),
    leads_next _ (fun t => !t.block.status.getLsbD 12) (by decide)⟩

theorem test_witness_FbctlWriteClampsFblenTo16 :
    hostTakes (facing State.reset [.write 0xC8 32 0x1001]) (.write 0xC8 32 0x1001) []
      ∧ hostTakes (facing State.reset [.write 0xC8 32 0x1101]) (.write 0xC8 32 0x1101) [] ∧ State.reset.block.busy = false :=
  ⟨⟨rfl, .inl (by decide)⟩, ⟨rfl, .inl (by decide)⟩, by decide⟩

theorem test_witness_CmdWriteIssuesWhenIdleAndIsIgnoredWhenBusy :
    (hostTakes (facing State.reset [.write 0xC0 32 7]) (.write 0xC0 32 7) [] ∧ State.reset.block.busy = false)
    ∧ hostTakes (pending State.reset 0 1 [.write 0xC0 32 7]) (.write 0xC0 32 7) []
    ∧ (pending State.reset 0 1 [.write 0xC0 32 7]).block.busy = true :=
  ⟨⟨⟨rfl, .inl (by decide)⟩, by decide⟩, ⟨rfl, .inr (by decide)⟩, by decide⟩

theorem test_witness_BusyWriteOnlySetsEBusy :
    hostTakes (pending State.reset 0 1 [.write 0xC8 32 7]) (.write 0xC8 32 7) [] ∧ legal 0xC8 32 = true
      ∧ (0xC8 : BitVec 8) ≠ 0xC4 ∧ (pending State.reset 0 1 [.write 0xC8 32 7]).block.busy = true :=
  ⟨⟨rfl, .inr (by decide)⟩, by decide, by decide, by decide⟩

/-- The first and last legal word of KEY and its last byte. -/
theorem test_witness_KeyWriteStoresAndClearsKeyvAndReadsZero :
    hostTakes (facing State.reset [.write 0x1C 32 9]) (.write 0x1C 32 9) [] ∧ legal 0x1C 32 = true
      ∧ hostTakes (facing State.reset [.write 0x1F 8 9]) (.write 0x1F 8 9) [] ∧ legal 0x1F 8 = true
      ∧ (0x1F : BitVec 8).toNat < 32 ∧ legal 0x00 32 = true ∧ State.reset.block.busy = false :=
  ⟨⟨rfl, .inl (by decide)⟩, by decide, ⟨rfl, .inl (by decide)⟩, by decide, by decide, by decide, by decide⟩

/-- Each register at a boundary: the last word of BLK_IN, the last byte of FB, the last of EB and the first word of IV. -/
theorem test_witness_ReadAfterWriteReturnsWrittenValue :
    (hostTakes (facing State.reset [.write 0x3C 32 9]) (.write 0x3C 32 9) [] ∧ legal 0x3C 32 = true
      ∧ readWriteOffset (0x3C : BitVec 8).toNat ∧ (facing State.reset [.write 0x3C 32 9]).block.busy = false)
    ∧ (hostTakes (facing State.reset [.write 0x6F 8 0x155]) (.write 0x6F 8 0x155) [] ∧ legal 0x6F 8 = true
      ∧ readWriteOffset (0x6F : BitVec 8).toNat)
    ∧ (legal 0x8F 8 = true ∧ readWriteOffset (0x8F : BitVec 8).toNat)
    ∧ legal 0x98 32 = true ∧ readWriteOffset (0x98 : BitVec 8).toNat :=
  ⟨⟨⟨rfl, .inl (by decide)⟩, by decide, .inl (by decide), by decide⟩,
    ⟨⟨rfl, .inl (by decide)⟩, by decide, .inr (.inl (by decide))⟩,
    ⟨by decide, .inr (.inr (.inl (by decide)))⟩, by decide, .inr (.inr (.inr (by decide)))⟩

/-- The first word beyond KEY, the bytes just before and after it; and the last word of the byte registers. -/
theorem test_witness_WriteLeavesOtherBytesUnchanged :
    hostTakes (facing State.reset [.write 0x20 32 9]) (.write 0x20 32 9) [] ∧ legal 0x20 32 = true
      ∧ (0x20 : BitVec 8).toNat < 0xC0 ∧ (facing State.reset [.write 0x20 32 9]).block.busy = false
      ∧ (0x1F : BitVec 8).toNat < (0x20 : BitVec 8).toNat ∧ (0x20 : BitVec 8).toNat + 32 / 8 ≤ (0x24 : BitVec 8).toNat
      ∧ 0x20 ≤ (0x20 : BitVec 8).toNat
      ∧ hostTakes (facing State.reset [.write 0xA4 32 9]) (.write 0xA4 32 9) [] ∧ legal 0xA4 32 = true :=
  ⟨⟨rfl, .inl (by decide)⟩, by decide, by decide, by decide, by decide, by decide, by decide, ⟨rfl, .inl (by decide)⟩,
    by decide⟩

theorem test_witness_ResultRegistersIgnoreHostWrites :
    hostTakes (facing State.reset [.write 0x5F 8 9]) (.write 0x5F 8 9) [] ∧ legal 0x5F 8 = true ∧ readOnlyOffset 0x5F
      ∧ hostTakes (facing State.reset [.write 0x94 32 9]) (.write 0x94 32 9) [] ∧ legal 0x94 32 = true ∧ readOnlyOffset 0x94
      ∧ readOnlyOffset 0xA0 ∧ State.reset.block.busy = false :=
  ⟨⟨rfl, .inl (by decide)⟩, by decide, .inl (by decide), ⟨rfl, .inl (by decide)⟩, by decide, .inr (.inl (by decide)),
    .inr (.inr (by decide)), by decide⟩

theorem test_witness_ReadsHaveNoSideEffectOnTheBlock :
    hostTakes (facing State.reset [.read 0x40 32 ['x']]) (.read 0x40 32 ['x']) [] ∧ legal 0x40 32 = true
      ∧ hostTakes (facing State.reset [.read 0x70 32 ['x']]) (.read 0x70 32 ['x']) [] ∧ legal 0x70 32 = false
      ∧ Block.reset.busy = false
      ∧ (pending State.reset 0 1 []).block.busy = true ∧ resultOffset (0x20 : BitVec 8).toNat = false ∧ legal 0x20 8 = true :=
  ⟨⟨rfl, .inl (by decide)⟩, by decide, ⟨rfl, .inl (by decide)⟩, by decide, by decide, by decide, by decide, by decide⟩

/-- CMD, the last byte of KEY, STATUS, FBCTL while idle; and byte registers at both ends: the last word of BLK_IN and IV
while BUSY = 1, the last byte of BLK_OUT and the last word of IR while idle. -/
theorem test_witness_ReadAnswersContentsOfTheRegister :
    (hostTakes (facing State.reset [.read 0xC0 32 ['x']]) (.read 0xC0 32 ['x']) [] ∧ legal 0xC0 32 = true)
    ∧ (hostTakes (facing (start 4 k1) [.read 0x1F 8 ['x']]) (.read 0x1F 8 ['x']) [] ∧ legal 0x1F 8 = true
      ∧ (0x1F : BitVec 8).toNat < 0x20)
    ∧ (hostTakes (pending State.reset 0 1 [.read 0xC4 32 ['x']]) (.read 0xC4 32 ['x']) [] ∧ legal 0xC4 32 = true)
    ∧ (hostTakes (facing State.reset [.read 0xC8 32 ['x']]) (.read 0xC8 32 ['x']) [] ∧ legal 0xC8 32 = true
      ∧ (facing State.reset [.read 0xC8 32 ['x']]).block.busy = false)
    ∧ (hostTakes (pending State.reset 0 1 [.read 0x3C 32 ['x']]) (.read 0x3C 32 ['x']) [] ∧ legal 0x3C 32 = true
      ∧ (0x20, Block.reset.blkIn.toList, false) ∈ readableRegisters Block.reset)
    ∧ (hostTakes (pending State.reset 0 1 [.read 0x9C 32 ['x']]) (.read 0x9C 32 ['x']) [] ∧ legal 0x9C 32 = true
      ∧ (0x98, Block.reset.iv.toList, false) ∈ readableRegisters Block.reset)
    ∧ (hostTakes (facing State.reset [.read 0x5F 8 ['x']]) (.read 0x5F 8 ['x']) [] ∧ legal 0x5F 8 = true
      ∧ (0x40, Block.reset.blkOut.toList, true) ∈ readableRegisters Block.reset)
    ∧ (hostTakes (facing State.reset [.read 0xA4 32 ['x']]) (.read 0xA4 32 ['x']) [] ∧ legal 0xA4 32 = true
      ∧ (0xA0, Block.reset.ir.toList, true) ∈ readableRegisters Block.reset) :=
  ⟨⟨⟨rfl, .inl (by decide)⟩, by decide⟩, ⟨⟨rfl, .inl (by decide)⟩, by decide, by decide⟩,
    ⟨⟨rfl, .inr (by decide)⟩, by decide⟩, ⟨⟨rfl, .inl (by decide)⟩, by decide, by decide⟩,
    ⟨⟨rfl, .inr (by decide)⟩, by decide, by decide⟩, ⟨⟨rfl, .inr (by decide)⟩, by decide, by decide⟩,
    ⟨⟨rfl, .inl (by decide)⟩, by decide, by decide⟩, ⟨rfl, .inl (by decide)⟩, by decide, by decide⟩

theorem test_witness_NoHostReadRevealsTheKey :
    (∃ t, step (facing (start 0 k1) [.read 0x00 32 ['x']]) = .next t ∧ (t.host.replies == [.data ['x'] 32 0]) = true)
    ∧ ∃ t, step (withKey (facing (start 0 k1) [.read 0x00 32 ['x']]) Block.reset.key) = .next t
        ∧ (t.host.replies == [.data ['x'] 32 0]) = true :=
  ⟨leads_next _ (fun t => t.host.replies == [.data ['x'] 32 0]) (by decide),
    leads_next _ (fun t => t.host.replies == [.data ['x'] 32 0]) (by decide)⟩

theorem test_witness_WordReadOfScalarRegisterIsItsHalf : Block.reset.busy = false ∧ 0 < 2 ∧ 1 < 2 := by decide

theorem test_witness_WaitEndsExactlyWhenBusyReadsZero :
    hostTakes (facing State.reset [.wait]) .wait [] ∧ State.reset.block.status.getLsbD 0 = false
      ∧ hostTakes (pending State.reset 0 1 [.wait]) .wait []
      ∧ (pending State.reset 0 1 [.wait]).block.status.getLsbD 0 = true :=
  ⟨⟨rfl, .inl (by decide)⟩, by decide, ⟨rfl, .inr (by decide)⟩, by decide⟩

theorem test_witness_NopOnlySetsDone :
    hostTakes (pending State.reset 1 1 [.write 0xC0 32 0]) (.write 0xC0 32 0) []
      ∧ (pending State.reset 1 1 [.write 0xC0 32 0]).block.busy = true
      ∧ (0x00000100#32).extractLsb' 0 8 = 0x00 ∧ (0x00000100#32) ≠ 0x00000000 :=
  ⟨⟨rfl, .inr (by decide)⟩, by decide, by decide, by decide⟩

theorem test_witness_IllegalWordOfCommandWithoutLen :
    completes (pending State.reset 0x00000101 0 []) 0x00000101 ∧ (0x00000101#32).extractLsb' 0 8 = 0x01
      ∧ (0x00000103#32).extractLsb' 0 8 = 0x03 ∧ (0x00004008#32).extractLsb' 0 8 = 0x08
      ∧ (0x00000109#32).extractLsb' 0 8 = 0x09 ∧ (0x8000000A#32).extractLsb' 0 8 = 0x0A
      ∧ (0x0000010B#32).extractLsb' 0 8 = 0x0B :=
  ⟨⟨by decide, rfl, by decide⟩, by decide, by decide, by decide, by decide, by decide, by decide⟩

/-- The words with LEN at both ends of the field, legal and with a reserved bit. -/
theorem test_witness_LenWords :
    (0x00003F02#32).extractLsb' 0 8 = 0x02 ∧ (0x00003F02#32).extractLsb' 14 18 = 0#18
      ∧ (0x00000004#32).extractLsb' 14 18 = 0#18 ∧ (0x00004005#32).extractLsb' 0 8 = 0x05
      ∧ (0x00004005#32).extractLsb' 14 18 ≠ 0#18 := by decide

/-- The guards of GEN, SENC and SDEC: keyed and open; without a key; keyed and closed. -/
theorem test_witness_StreamGuards :
    (start 4 k1).block.keyv = true ∧ (start 4 k1).block.sclosed = false ∧ (start 0 k1).block.keyv = false
      ∧ (start 0x0C k1).block.keyv = true ∧ (start 0x0C k1).block.sclosed = true := by decide

/-- ENCODE, 42_encoder.md R163: the largest result, the smallest, and one outside on each side. -/
theorem test_witness_EncodeWritesScaledValuePlusNoise :
    beSint64 (sintReg 18446744073709551).toList * 1000 + 615 = 2 ^ 64 - 1 ∧ beSint64 (sintReg 0).toList * 1000 + 0 = 0
      ∧ beSint64 (sintReg (-1)).toList * 1000 + 999 < 0 ∧ 2 ^ 64 - 1 < beSint64 (sintReg 18446744073709551).toList * 1000 + 616
      ∧ (start 6 [0, 0, 0x02, 0x67]).block.noise = 615 ∧ (start 6 [0, 0, 0x02, 0x67]).block.keyv = true := by decide

theorem test_witness_DecodeWritesFloorQuotient : (start 6 []).block.keyv = true ∧ (start 2 []).block.keyv = false := by decide

theorem test_witness_AddWritesSumOrOverflows :
    beUint (scalars State.reset (2 ^ 64 - 1) 0 0).block.ea.toList + beUint (uintReg 0).toList = 2 ^ 64 - 1
      ∧ 2 ^ 64 - 1 < beUint (uintReg (2 ^ 64 - 1)).toList + beUint (uintReg 1).toList := by decide

theorem test_witness_ScaleWritesProductOrOverflows :
    (beUint (uintReg 0).toList : Int) * beSint64 (sintReg (-5)).toList = 0
      ∧ (beUint (uintReg (2 ^ 64 - 1)).toList : Int) * beSint64 (sintReg 1).toList = 2 ^ 64 - 1
      ∧ (beUint (uintReg 1).toList : Int) * beSint64 (sintReg (-1)).toList < 0
      ∧ 2 ^ 64 - 1 < (beUint (uintReg (2 ^ 63)).toList : Int) * beSint64 (sintReg 2).toList := by decide

theorem test_witness_KeylessKeyCommandsRecordOnlyENokey :
    keyCommand (.gen 0) ∧ keyCommand (.sdec 32) ∧ keyCommand .encode ∧ State.reset.block.keyv = false
      ∧ ¬ keyCommand .add ∧ ∃ t, exec .add State.reset = .next t ∧ t.block.done = true :=
  ⟨.inl ⟨0, .inl rfl⟩, .inl ⟨32, .inr (.inr rfl)⟩, .inr (.inl rfl), by decide, by simp [keyCommand],
    leads_next _ (fun t => t.block.done) (by decide)⟩

theorem test_witness_ErringCommandHasNoOtherEffect :
    (∃ t, exec .encode State.reset = .next t ∧ t.block.status.getLsbD 9 = true)
    ∧ (∃ t, exec (.senc 1) (start 0x0C k1) = .next t ∧ t.block.status.getLsbD 10 = true)
    ∧ (∃ t, exec .add (scalars State.reset (2 ^ 64 - 1) 1 0) = .next t ∧ t.block.status.getLsbD 11 = true)
    ∧ State.reset.block.status.getLsbD 9 = false ∧ (start 0x0C k1).block.status.getLsbD 10 = false
    ∧ (scalars State.reset (2 ^ 64 - 1) 1 0).block.status.getLsbD 11 = false :=
  ⟨leads_next _ (fun t => t.block.status.getLsbD 9) (by decide),
    leads_next _ (fun t => t.block.status.getLsbD 10) (by decide),
    leads_next _ (fun t => t.block.status.getLsbD 11) (by decide), by decide, by decide, by decide⟩

/-- One pending word for each case: ILLEGAL, no key, closed pass, and none of these, with ADD out of range by 1, ADD at the
end of the range, and a command that has no sum. -/
theorem test_witness_FirstErrorByPriorityIsTheOnlyOneReported :
    (completes (pending State.reset 0x4004 0 []) 0x4004 ∧ decode 0x4004 = none)
    ∧ (completes (pending State.reset 0x2004 0 []) 0x2004 ∧ decode 0x2004 = some (.senc 32) ∧ keyCommand (.senc 32)
        ∧ (pending State.reset 0x2004 0 []).block.keyv = false)
    ∧ (completes (pending (start 0x0C k1) 0x2004 0 []) 0x2004 ∧ streamCommand (.senc 32)
        ∧ (pending (start 0x0C k1) 0x2004 0 []).block.keyv = true
        ∧ (pending (start 0x0C k1) 0x2004 0 []).block.sclosed = true)
    ∧ (completes (pending (start 4 k1) 0x2004 0 []) 0x2004 ∧ (pending (start 4 k1) 0x2004 0 []).block.sclosed = false
        ∧ ¬ overflows (.senc 32) (pending (start 4 k1) 0x2004 0 []).block)
    ∧ (completes (pending (scalars State.reset (2 ^ 64 - 1) 1 0) 0x0A 0 []) 0x0A ∧ decode 0x0A = some .add
        ∧ ¬ keyCommand .add ∧ ¬ streamCommand .add
        ∧ overflows .add (pending (scalars State.reset (2 ^ 64 - 1) 1 0) 0x0A 0 []).block
        ∧ ¬ overflows .add (pending (scalars State.reset (2 ^ 64 - 1) 0 0) 0x0A 0 []).block) :=
  ⟨⟨⟨by decide, rfl, by decide⟩, by decide⟩,
    ⟨⟨by decide, rfl, by decide⟩, by decide, .inl ⟨32, .inr (.inl rfl)⟩, by decide⟩,
    ⟨⟨by decide, rfl, by decide⟩, ⟨32, .inl rfl⟩, by decide, by decide⟩,
    ⟨⟨by decide, rfl, by decide⟩, by decide, by unfold overflows; decide⟩,
    ⟨⟨by decide, rfl, by decide⟩, by decide, by simp [keyCommand], by simp [streamCommand], by unfold overflows; decide,
      by unfold overflows; decide⟩⟩

theorem test_witness_FeedbackOperandFollowsFbctl :
    Block.reset.fbctl.getLsbD 0 = false ∧ (keyedBlock [] abc 0x00001001).fbctl.getLsbD 0 = true
      ∧ (keyedBlock [] abc 0x00000001).fbctl.getLsbD 0 = true := by decide

/-- A short block with a short feedback, and a block of 33 bytes without feedback. -/
theorem test_witness_GeneratePadsInputsAndTruncatesOutput :
    ((pad [0x41] 32).toList = [0x41].take 32 ++ List.replicate (32 - [0x41#8].length) 0
        ∧ (some (pad [0x42] 16)).map (fun v => v.toList)
          = (some [0x42#8]).map (fun G => G.take 16 ++ List.replicate (16 - G.length) 0))
    ∧ (pad (0x01 :: k1) 32).toList = (0x01 :: k1).take 32 ++ List.replicate (32 - (0x01#8 :: k1).length) 0 := by decide

theorem test_witness_ShorterKeystreamIsPrefixOfZeroPadded : abc.length + 24 ≤ 32 ∧ ([] : Bytes).length + 32 ≤ 32 := by decide

theorem test_witness_GenOutputDependsOnItsOperandsOnly :
    (start 4 k1).block.key.toList.take 8 = (start 0x0C (k1.take 8)).block.key.toList.take 8
      ∧ (start 4 k1).block.fbop = (start 0x0C (k1.take 8)).block.fbop ∧ (start 4 k1).block.keyv = true
      ∧ (start 0x0C (k1.take 8)).block.keyv = true
      ∧ (∃ t, exec (.gen 3) (start 4 k1) = .next t ∧ t.block.done = true)
      ∧ ∃ t, exec (.gen 3) (start 0x0C (k1.take 8)) = .next t ∧ t.block.done = true :=
  ⟨by decide, by decide, by decide, by decide, leads_next _ (fun t => t.block.done) (by decide),
    leads_next _ (fun t => t.block.done) (by decide)⟩

theorem test_witness_KeyBytesBeyondEightAffectNoStep :
    (pending (start 4 k1) 8 0 []).block.key.toList.take 8 = (pad (k1.take 8) 32).toList.take 8
      ∧ ∃ t, step (pending (start 4 k1) 8 0 []) = .next t ∧ t.block.done = true :=
  ⟨by decide, leads_next _ (fun t => t.block.done) (by decide)⟩

theorem test_witness_StreamPasses :
    (start 4 k1).block.keyv = true ∧ ∃ t, exec .sinit (start 4 k1) = .next t ∧ t.block.done = true :=
  ⟨by decide, leads_next _ (fun t => t.block.done) (by decide)⟩

theorem test_witness_RoundTripOfABlockNeedsEqualKeystreams : k1.length ≤ 32 ∧ ([] : Bytes).length ≤ 32 := by decide

/-- The ends of the safe range for NOISE 616, and one outside on each side. -/
theorem test_witness_EncodeThenDecodeReturnsValueInSafeRangeOnly :
    (start 6 [0, 0, 0x02, 0x68]).block.keyv = true ∧ (start 6 [0, 0, 0x02, 0x68]).block.noise = 616
      ∧ ((2 ^ 64 - 1 - 616) / 1000 : Nat) = 18446744073709550
      ∧ beSint64 (scalars State.reset 0 0 18446744073709550).block.iv.toList = 18446744073709550
      ∧ beSint64 (scalars State.reset 0 0 18446744073709551).block.iv.toList = 18446744073709551
      ∧ beSint64 (scalars State.reset 0 0 (-1)).block.iv.toList = -1 := by decide

/-- Section 3, program L3-4: 7234 and 5234 with NOISE 234. -/
theorem test_witness_SumOfTwoEncodingsDecodesExactly :
    (start 6 [0, 0, 0x04, 0xD2]).block.noise = 234 ∧ (start 6 [0, 0, 0x04, 0xD2]).block.keyv = true
      ∧ beUint (uintReg 7234).toList = 1000 * 7 + 234 ∧ beUint (uintReg 5234).toList = 1000 * 5 + 234
      ∧ 1000 * (7 + 5) + 2 * 234 ≤ 2 ^ 64 - 1 := by decide

/-- Section 2.6: encode(7) scaled by 10, and by 0. -/
theorem test_witness_ScaledEncodingDecodesWithBias :
    beUint (uintReg 7234).toList = 1000 * 7 + 234 ∧ beSint64 (sintReg 10).toList = 10 ∧ beSint64 (sintReg 0).toList = 0
      ∧ (1000 * 7 + 234) * 10 ≤ 2 ^ 64 - 1 := by decide

theorem test_witness_AddAndScaleObeyArithmeticLaws :
    beUint (uintReg 1).toList + beUint (uintReg 2).toList + beUint (uintReg 3).toList ≤ 2 ^ 64 - 1
      ∧ (∃ t, exec .add (scalars State.reset 1 2 0) = .next t ∧ t.block.done = true)
      ∧ (0 : Int) ≤ beUint (uintReg 5).toList * beSint64 (sintReg 3).toList
      ∧ beSint64 (sintReg 12).toList = beSint64 (sintReg 3).toList * beSint64 (sintReg 4).toList
      ∧ (beUint (uintReg 5).toList : Int) * beSint64 (sintReg 3).toList * beSint64 (sintReg 4).toList ≤ 2 ^ 64 - 1 :=
  ⟨by decide, leads_next _ (fun t => t.block.done) (by decide), by decide, by decide, by decide⟩

end Sys2Proof.Tests
end

section
/-! The host's turn, the widths the window admits, and the byte lanes of a write: what a step does when the host takes an
access (20_memory.md R51 to R57, R64). -/

namespace Sys2Proof.Proofs

open Sys2Proof Sys2Proof.Machine Sys2Proof.Claims

/-! ### Legal accesses -/

/-- An 8-bit access lies below the 32-bit registers, a 32-bit access is aligned (20_memory.md R51). -/
theorem legal_width {off : BitVec 8} {w : Nat} (hl : legal off w = true) :
    (w = 8 ∧ off.toNat < 0xC0) ∨ (w = 32 ∧ off.toNat % 4 = 0) := by
  simp only [legal, reservedOffset, Bool.not_eq_true', Bool.or_eq_false_iff, Bool.and_eq_false_iff, bne_eq_false_iff_eq,
    beq_eq_false_iff_ne, decide_eq_false_iff_not] at hl
  omega

/-- The 32-bit registers are written and read in 32 bits only (20_memory.md R51). -/
theorem legal_wordRegister {off : BitVec 8} {w : Nat} (hl : legal off w = true) (h : 0xC0 ≤ off.toNat) : w = 32 := by
  rcases legal_width hl with ⟨_, hlt⟩ | ⟨hw, _⟩
  · omega
  · exact hw

/-- A legal access that begins below a word boundary ends at or below it. -/
theorem legal_end_le {off : BitVec 8} {w top : Nat} (hl : legal off w = true) (aligned : top % 4 = 0)
    (h : off.toNat < top) : off.toNat + w / 8 ≤ top := by
  rcases legal_width hl with ⟨rfl, _⟩ | ⟨rfl, _⟩ <;> omega

/-- A legal write carries as many bytes as its width says (20_memory.md R52). -/
theorem lanes_length {off : BitVec 8} {w : Nat} (hl : legal off w = true) (v : Word) : (lanes w v).length = w / 8 := by
  rcases legal_width hl with ⟨rfl, _⟩ | ⟨rfl, _⟩ <;> rfl

/-- The lanes of a write are the data's bytes, most significant first (20_memory.md R52). -/
theorem lanes_getD {off : BitVec 8} {w : Nat} (hl : legal off w = true) (v : Word) (i : Nat) (hi : i < w / 8) :
    (lanes w v).getD i 0 = BitVec.ofNat 8 (v.toNat / 256 ^ (w / 8 - 1 - i)) := by
  have lane (n : Nat) : v.extractLsb' (8 * n) 8 = BitVec.ofNat 8 (v.toNat / 256 ^ n) := by
    apply BitVec.eq_of_toNat_eq
    simp only [BitVec.extractLsb'_toNat, BitVec.toNat_ofNat, Nat.shiftRight_eq_div_pow, Nat.pow_mul,
      Nat.reducePow]
  rcases legal_width hl with ⟨rfl, _⟩ | ⟨rfl, _⟩
  · obtain rfl : i = 0 := by omega
    exact lane 0
  · interval_cases i
    · exact lane 3
    · exact lane 2
    · exact lane 1
    · exact lane 0

/-! ### The state after an input is taken -/

@[simp] theorem afterInput_block (s : State) (rest : List Input) : (afterInput s rest).block = s.block := rfl
@[simp] theorem afterInput_freeIdx (s : State) (rest : List Input) : (afterInput s rest).freeIdx = s.freeIdx := rfl
@[simp] theorem afterInput_replies (s : State) (rest : List Input) :
    (afterInput s rest).host.replies = s.host.replies := rfl

/-- The engine waits when the host takes an input (30_encoding.md R89). -/
theorem engineTurn_of_hostTakes {s : State} {i : Input} {rest : List Input} (h : hostTakes s i rest) :
    s.engineTurn = none := by
  obtain ⟨hin, hturn⟩ := h
  rw [Option.eq_none_iff_forall_ne_some]
  intro c hc
  obtain ⟨hbusy, -, hdelay | hempty⟩ := (engineTurn_eq_some s c).1 hc
  · rcases hturn with hidle | hpos
    · rw [hbusy] at hidle; cases hidle
    · omega
  · rw [hin] at hempty; cases hempty

/-- While the engine waits, a step is the host's turn (20_memory.md R64). -/
theorem step_of_engineTurn_none {s : State} (h : s.engineTurn = none) : step s = .next (hostTurn s) := by
  rw [step, h]

/-- A step that takes a write (20_memory.md R52). -/
theorem step_write {s : State} {off : BitVec 8} {w : Nat} {v : Word} {rest : List Input}
    (h : hostTakes s (.write off w v) rest) : step s = .next (hostWrite off w v (afterInput s rest)) := by
  rw [step_of_engineTurn_none (engineTurn_of_hostTakes h), hostTurn, afterInput]
  cases s.block.busy <;> simp only [hostStep, h.1, Bool.false_eq_true, if_false, if_true] <;> rfl

/-- A step that takes a read (20_memory.md R54). -/
theorem step_read {s : State} {off : BitVec 8} {w : Nat} {name : Name} {rest : List Input}
    (h : hostTakes s (.read off w name) rest) : step s = .next (hostRead off w name (afterInput s rest)) := by
  rw [step_of_engineTurn_none (engineTurn_of_hostTakes h), hostTurn, afterInput]
  cases s.block.busy <;> simp only [hostStep, h.1, Bool.false_eq_true, if_false, if_true] <;> rfl

/-- A step that takes a legal write to any offset but CMD changes the block and takes the input, nothing else
(20_memory.md R52). -/
theorem step_write_block {s : State} {off : BitVec 8} {w : Nat} {v : Word} {rest : List Input}
    (h : hostTakes s (.write off w v) rest) (hl : legal off w = true) (hcmd : off ≠ 0xC0) :
    step s = .next { afterInput s rest with block := s.block.hostWrite off w v } := by
  have hissue : s.block.issues off = false := by rw [Block.issues, beq_false_of_ne hcmd, Bool.false_and]
  rw [step_write h, hostWrite, hl, afterInput_block, hissue]
  rfl

/-- A step that takes a write to a byte register while idle writes its lanes (20_memory.md R52). -/
theorem step_write_bytes {s : State} {off : BitVec 8} {w : Nat} {v : Word} {rest : List Input}
    (h : hostTakes s (.write off w v) rest) (hl : legal off w = true) (hoff : off.toNat < 0xC0)
    (hidle : s.block.busy = false) :
    step s = .next { afterInput s rest with block := s.block.writeBytes off.toNat (lanes w v) } := by
  rw [step_write_block h hl (offset_below_cmd off hoff).2.1, hostWrite_of_byteRegister _ _ _ _ hidle hoff]

/-- A step that takes a legal read keeps the block and answers the value read (20_memory.md R54, R55). -/
theorem step_read_answers {s : State} {off : BitVec 8} {w : Nat} {name : Name} {rest : List Input}
    (h : hostTakes s (.read off w name) rest) (hl : legal off w = true) :
    ∃ t, step s = .next t ∧ t.block = s.block
      ∧ t.host.replies = .data name w (s.block.readValue s.freeIdx off w) :: s.host.replies := by
  refine ⟨_, step_read h, ?_, ?_⟩ <;> rw [hostRead, hl] <;> rfl

end Sys2Proof.Proofs
end

section
/-! What a step does to the block, said once, and from it the transition matrix of STATUS, FBCTL and IR
(10_state.md R30 to R39). -/

namespace Sys2Proof.Proofs

open Sys2Proof Sys2Proof.Machine Sys2Proof.Claims

/-! ### What a step does to the block -/

/-- What the completion of word `c` makes of STATUS and FBCTL, from `b` to `r`, before DONE is set and BUSY cleared
(30_encoding.md R88, 10_state.md R39). -/
inductive Completion (c : Word) (b r : Block) : Prop
  | error (k : Nat) (low : 8 ≤ k) (high : k ≤ 11) (status : r.status = setBit b.status k true) (fbctl : r.fbctl = b.fbctl)
  | keyload (word : c = 0x00000001) (status : r.status = setBit (setBit b.status bitSclosed false) bitKeyv true)
      (fbctl : r.fbctl = fbctlWith b.fbctl false 0#5)
  | sinit (word : c = 0x00000003) (status : r.status = setBit b.status bitSclosed false)
      (fbctl : r.fbctl = fbctlWith b.fbctl false 0#5)
  | fullBlock (n : Nat) (len : 32 ≤ n) (word : decode c = some (.senc n) ∨ decode c = some (.sdec n))
      (status : r.status = b.status) (fbctl : r.fbctl = fbctlWith b.fbctl true 16#5)
  | shortBlock (n : Nat) (len : n < 32) (word : decode c = some (.senc n) ∨ decode c = some (.sdec n))
      (status : r.status = setBit b.status bitSclosed true) (fbctl : r.fbctl = b.fbctl)
  | plain (status : r.status = b.status) (fbctl : r.fbctl = b.fbctl)

/-- IR after a completion: as before, or the quotient DECODE writes (42_encoder.md R164). -/
def irKeptOrQuotient (b r : Block) : Prop :=
  r.ir = b.ir ∨ r.ir = sintReg (((b.opA : Int) - b.noise) / 1000)

/-- What one step makes of the block of `s`: a completion, nothing, a legal host write, or a reset. -/
inductive BlockMove (s : State) (b' : Block) : Prop
  | completion (c : Word) (r : Block) (turn : completes s c) (shape : Completion c s.block r)
      (ir : irKeptOrQuotient s.block r) (block : b' = r.release)
  | keep (block : b' = s.block)
  | write (off : BitVec 8) (w : Nat) (v : Word) (rest : List Input) (input : s.host.inputs = .write off w v :: rest)
      (lawful : legal off w = true) (block : b' = s.block.hostWrite off w v)
  | reset (rest : List Input) (input : s.host.inputs = .reset :: rest) (block : b' = Block.reset)

/-- No two words decode to one command (30_encoding.md R84). -/
theorem decode_injective {c d : Word} {i : Instr} (hc : decode c = some i) (hd : decode d = some i) : c = d := by
  obtain ⟨hopc, ec⟩ := decode_some c i hc
  obtain ⟨hopd, ed⟩ := decode_some d i hd
  have casesc := decodeOp_cases _ _ _ hopc
  have casesd := decodeOp_cases _ _ _ hopd
  have fields : (opField c).toNat = (opField d).toNat ∧ (lenField c).toNat = (lenField d).toNat := by
    cases i <;> simp at casesc casesd <;> omega
  rw [ec, ed, fields.1, fields.2]

/-- A step in which word `c` completes, whether it decodes or not: the host's side is kept, the block goes through one of
the shapes of `Completion`. -/
theorem step_of_completes {s t : State} {c : Word} (hc : completes s c) (h : step s = .next t) :
    t.host = s.host ∧ ∃ r, Completion c s.block r ∧ irKeptOrQuotient s.block r ∧ t.block = r.release := by
  have hturn := (engineTurn_eq_some s c).2 hc
  rcases step_cases s t h with ⟨c', hc', hmove⟩ | ⟨hnone, -⟩
  · obtain rfl : c' = c := Option.some.inj (hc'.symm.trans hturn)
    rcases hmove with ⟨i, hi, hexec⟩ | ⟨-, rfl⟩
    · obtain ⟨hhost, -, -, r, hblock, -, hir, hshape⟩ := exec_shape i s t hexec
      refine ⟨hhost, r, ?_, hir, hblock⟩
      rcases hshape with ⟨k, low, high, rfl⟩ | ⟨rfl, hst, hfc⟩ | ⟨rfl, hst, hfc⟩ | ⟨n, hn, hcmd, hst, hfc⟩
        | ⟨n, hn, hcmd, hst, hfc⟩ | ⟨hst, hfc⟩
      · exact .error k (by omega) high rfl rfl
      · exact .keyload (decode_injective hi (by decide)) hst hfc
      · exact .sinit (decode_injective hi (by decide)) hst hfc
      · exact .fullBlock n hn (by rcases hcmd with rfl | rfl <;> simp [hi]) hst hfc
      · exact .shortBlock n hn (by rcases hcmd with rfl | rfl <;> simp [hi]) hst hfc
      · exact .plain hst hfc
    · exact ⟨rfl, s.block.recordFault .eIll, .error 8 le_rfl (by decide) rfl rfl, .inl rfl, rfl⟩
  · rw [hturn] at hnone; cases hnone

/-- Every step moves the block in one of the four ways of `BlockMove`. -/
theorem step_blockMove {s t : State} (h : step s = .next t) : BlockMove s t.block := by
  rcases step_cases s t h with ⟨c, hturn, -⟩ | ⟨-, rfl⟩
  · have hc : completes s c := (engineTurn_eq_some s c).1 hturn
    obtain ⟨-, r, hshape, hir, hblock⟩ := step_of_completes hc h
    exact .completion c r hc hshape hir hblock
  · rcases hostTurn_block s with hblock | ⟨off, w, v, rest, hin, hl, hblock⟩ | ⟨rest, hin, hblock⟩
    · exact .keep hblock
    · exact .write off w v rest hin hl hblock
    · exact .reset rest hin hblock

/-! ### The transition matrix of STATUS -/

/-- No STATUS bit is set after a reset (70_reset_and_hazards.md R230). -/
theorem getLsbD_reset_status (k : Nat) : Block.reset.status.getLsbD k = false := BitVec.getLsbD_zero

/-- The width of a write to one of the 32-bit registers. -/
theorem legal_wordRegister_of_mem {off : BitVec 8} {w : Nat} (hl : legal off w = true)
    (h : off ∈ [0xC0, 0xC4, 0xC8]) : w = 32 := by
  refine legal_wordRegister hl ?_
  simp only [List.mem_cons, List.not_mem_nil, or_false] at h
  rcases h with rfl | rfl | rfl <;> decide

/-- The events that set STATUS bit `k` (10_state.md R32, R39): a completion sets DONE, an error bit, KEYV (KEYLOAD) or
SCLOSED (a short block); a CMD write while idle sets BUSY; a write while BUSY = 1 sets E_BUSY. -/
theorem statusBit_set {s t : State} {k : Nat} (h : step s = .next t) (hk : k < 32)
    (hs : s.block.status.getLsbD k = false) (ht : t.block.status.getLsbD k = true) :
    (∃ c, completes s c ∧ (k = 1 ∨ (8 ≤ k ∧ k ≤ 11) ∨ (k = 2 ∧ c = 0x00000001)
        ∨ (k = 3 ∧ ∃ n, n < 32 ∧ (decode c = some (.senc n) ∨ decode c = some (.sdec n)))))
    ∨ (k = 0 ∧ ∃ c rest, s.host.inputs = .write 0xC0 32 c :: rest ∧ t.block.pend = some c)
    ∨ k = 12 := by
  cases step_blockMove h with
  | completion c r turn shape _ block =>
    refine .inl ⟨c, turn, ?_⟩
    rw [block, getLsbD_release_status _ _ hk] at ht
    by_cases h1 : k = 1
    · exact .inl h1
    by_cases h0 : k = 0
    · simp [h0] at ht
    simp only [h1, h0, if_false] at ht
    cases shape with
    | error j low high status _ =>
      rw [status, getLsbD_setBit _ _ _ _ hk, hs] at ht
      obtain rfl : k = j := by simpa using ht
      exact .inr (.inl ⟨low, high⟩)
    | keyload word status _ =>
      rw [status, getLsbD_setBit _ _ _ _ hk, getLsbD_setBit _ _ _ _ hk, hs] at ht
      exact .inr (.inr (.inl ⟨by simpa using ht, word⟩))
    | sinit word status _ => simp [status, getLsbD_setBit _ _ _ _ hk, hs] at ht
    | fullBlock _ _ _ status _ => simp [status, hs] at ht
    | shortBlock n len word status _ =>
      rw [status, getLsbD_setBit _ _ _ _ hk, hs] at ht
      exact .inr (.inr (.inr ⟨by simpa using ht, n, len, word⟩))
    | plain status _ => simp [status, hs] at ht
  | keep block => rw [block, hs] at ht; cases ht
  | write off w v rest input lawful block =>
    rcases hostWrite_cases s.block off w v with ⟨-, e⟩ | ⟨-, -, e⟩ | ⟨rfl, -, e⟩ | ⟨-, -, e⟩ | ⟨-, -, -, -, e⟩ <;>
      rw [e] at block <;> rw [block] at ht ⊢
    · simp [getLsbD_statusAfterWrite _ _ _ hk, hs] at ht
    · rw [getLsbD_setBit _ _ _ _ hk, hs] at ht
      exact .inr (.inr (by simpa using ht))
    · rw [Block.issue_status, getLsbD_setBit _ _ _ _ hk, hs] at ht
      obtain rfl := legal_wordRegister_of_mem lawful (by simp)
      exact .inr (.inl ⟨by simpa using ht, v, rest, input, rfl⟩)
    · rw [hs] at ht; cases ht
    · rcases writeBytes_status s.block off.toNat (lanes w v) k hk with hkeep | ⟨-, -, hclear⟩
      · rw [hkeep, hs] at ht; cases ht
      · rw [hclear] at ht; cases ht
  | reset rest input block => rw [block, getLsbD_reset_status] at ht; cases ht

/-- The events that clear STATUS bit `k` (10_state.md R23, R33, R39): a completion clears BUSY, and SCLOSED when it is
KEYLOAD's or SINIT's; a STATUS write of 1 clears DONE or an error bit; a KEY write while idle clears KEYV; a reset clears
all. -/
theorem statusBit_cleared {s t : State} {k : Nat} (h : step s = .next t) (hk : k < 32)
    (hs : s.block.status.getLsbD k = true) (ht : t.block.status.getLsbD k = false) :
    (∃ c, completes s c ∧ (k = 0 ∨ (k = 3 ∧ (c = 0x00000001 ∨ c = 0x00000003))))
    ∨ (k ∈ [1, 8, 9, 10, 11, 12] ∧ ∃ w rest, s.host.inputs = .write 0xC4 32 w :: rest ∧ w.getLsbD k = true)
    ∨ (k = 2 ∧ s.block.busy = false ∧ ∃ off w v rest,
        off < 0x20#8 ∧ legal off w = true ∧ s.host.inputs = .write off w v :: rest)
    ∨ ∃ rest, s.host.inputs = .reset :: rest := by
  cases step_blockMove h with
  | completion c r turn shape _ block =>
    refine .inl ⟨c, turn, ?_⟩
    rw [block, getLsbD_release_status _ _ hk] at ht
    by_cases h0 : k = 0
    · exact .inl h0
    have h1 : k ≠ 1 := fun h1 => by simp [h1] at ht
    simp only [h1, h0, if_false] at ht
    refine .inr ?_
    cases shape with
    | error j _ _ status _ => simp [status, getLsbD_setBit _ _ _ _ hk, hs] at ht
    | keyload word status _ =>
      rw [status, getLsbD_setBit _ _ _ _ hk, getLsbD_setBit _ _ _ _ hk, hs] at ht
      exact ⟨(by simpa using ht : k ≠ bitKeyv ∧ k = bitSclosed).2, .inl word⟩
    | sinit word status _ =>
      rw [status, getLsbD_setBit _ _ _ _ hk, hs] at ht
      exact ⟨by simpa using ht, .inr word⟩
    | fullBlock _ _ _ status _ => simp [status, hs] at ht
    | shortBlock _ _ _ status _ => simp [status, getLsbD_setBit _ _ _ _ hk, hs] at ht
    | plain status _ => simp [status, hs] at ht
  | keep block => rw [block, hs] at ht; cases ht
  | write off w v rest input lawful block =>
    rcases hostWrite_cases s.block off w v with ⟨rfl, e⟩ | ⟨-, -, e⟩ | ⟨-, -, e⟩ | ⟨-, -, e⟩ | ⟨-, -, -, hidle, e⟩ <;>
      rw [e] at block <;> rw [block] at ht
    · obtain rfl := legal_wordRegister_of_mem lawful (by simp)
      rw [getLsbD_statusAfterWrite _ _ _ hk, hs] at ht
      obtain ⟨hmem, hone⟩ : k ∈ [1, 8, 9, 10, 11, 12] ∧ v.getLsbD k = true := by
        by_contra hcon; rw [if_neg hcon] at ht; cases ht
      exact .inr (.inl ⟨hmem, v, rest, input, hone⟩)
    · simp [getLsbD_setBit _ _ _ _ hk, hs] at ht
    · simp [getLsbD_setBit _ _ _ _ hk, hs] at ht
    · rw [hs] at ht; cases ht
    · rcases writeBytes_status s.block off.toNat (lanes w v) k hk with hkeep | ⟨hkeyv, hoff, -⟩
      · rw [hkeep, hs] at ht; cases ht
      · exact .inr (.inr (.inl ⟨hkeyv, hidle, off, w, v, rest, hoff, lawful, input⟩))
  | reset rest input _ => exact .inr (.inr (.inr ⟨rest, input⟩))

end Sys2Proof.Proofs
end

section
/-! The rules of 10_state.md about single fields: FBCTL, IR, BUSY and PEND; the machine's invariant (R30 to R39). -/

namespace Sys2Proof.Proofs

open Sys2Proof Sys2Proof.Machine Sys2Proof.Claims

/-! ### FBCTL -/

/-- A field write of FBCTL that keeps FBLEN in 0..16 (10_state.md R34, R35). -/
def fbctlFieldWrite (fc fc' : Word) : Prop := ∃ (v : Bool) (n : BitVec 5), n.toNat ≤ 16 ∧ fc' = fbctlWith fc v n

/-- The events that write FBCTL's fields: a full stream block, KEYLOAD, SINIT, an FBCTL write while idle
(10_state.md R39). -/
def fbctlEvent (s : State) : Prop :=
  (∃ c n, completes s c ∧ 32 ≤ n ∧ (decode c = some (.senc n) ∨ decode c = some (.sdec n)))
  ∨ completes s 0x00000001 ∨ completes s 0x00000003
  ∨ (s.block.busy = false ∧ ∃ w rest, s.host.inputs = .write 0xC8 32 w :: rest)

/-- A step keeps FBCTL, writes its fields in one of the listed events, or resets the block (10_state.md R39). -/
theorem fbctl_after_step {s t : State} (h : step s = .next t) :
    t.block.fbctl = s.block.fbctl ∨ (fbctlEvent s ∧ fbctlFieldWrite s.block.fbctl t.block.fbctl)
    ∨ (t.block = Block.reset ∧ ∃ rest, s.host.inputs = .reset :: rest) := by
  cases step_blockMove h with
  | completion c r turn shape _ block =>
    rw [block, Block.release_fbctl]
    cases shape with
    | error _ _ _ _ fbctl => exact .inl fbctl
    | keyload word _ fbctl =>
      subst word
      exact .inr (.inl ⟨.inr (.inl turn), false, 0, by decide, fbctl⟩)
    | sinit word _ fbctl =>
      subst word
      exact .inr (.inl ⟨.inr (.inr (.inl turn)), false, 0, by decide, fbctl⟩)
    | fullBlock n len word _ fbctl =>
      exact .inr (.inl ⟨.inl ⟨c, n, turn, len, word⟩, true, 16, by decide, fbctl⟩)
    | shortBlock _ _ _ _ fbctl => exact .inl fbctl
    | plain _ fbctl => exact .inl fbctl
  | keep block => exact .inl (by rw [block])
  | write off w v rest input lawful block =>
    rcases hostWrite_cases s.block off w v with ⟨-, e⟩ | ⟨-, -, e⟩ | ⟨-, -, e⟩ | ⟨rfl, hidle, e⟩ | ⟨-, -, -, -, e⟩ <;>
      rw [e] at block <;> rw [block]
    · exact .inl rfl
    · exact .inl rfl
    · exact .inl rfl
    · obtain rfl := legal_wordRegister_of_mem lawful (by simp)
      refine .inr (.inl ⟨.inr (.inr (.inr ⟨hidle, v, rest, input⟩)), v.getLsbD 0, clampFblen (fblenField v), ?_, rfl⟩)
      rw [clampFblen_toNat]
      exact Nat.min_le_right _ _
    · exact .inl (writeBytes_keeps _ _ _).1
  | reset rest input block => exact .inr (.inr ⟨block, rest, input⟩)

/-- Settles O19: the three cases of `fbctl_after_step`, of which the first leaves FBCTL. -/
theorem fbctlWrittenOnlyByListedEvents : Obligations.FbctlWrittenOnlyByListedEvents := by
  intro s t h hchanged
  rcases fbctl_after_step h with hkeep | ⟨hevent, -⟩ | ⟨-, hreset⟩
  · exact absurd hkeep hchanged
  · rcases hevent with hfull | hkeyload | hsinit | hwrite
    · exact .inl hfull
    · exact .inr (.inl hkeyload)
    · exact .inr (.inr (.inl hsinit))
    · exact .inr (.inr (.inr (.inl hwrite)))
  · exact .inr (.inr (.inr (.inr hreset)))

/-! ### The invariant -/

/-- Under a mask a word is 0 exactly when each of its bits in the mask is 0. -/
theorem and_mask_eq_zero_iff (w m : Word) :
    w &&& m = 0 ↔ ∀ k, k < 32 → m.getLsbD k = true → w.getLsbD k = false := by
  constructor
  · intro h k hk hm
    have hbit := congrArg (fun x : Word => x.getLsbD k) h
    simpa [hm] using hbit
  · intro h
    apply BitVec.eq_of_getLsbD_eq
    intro k hk
    cases hm : m.getLsbD k
    · simp [hm]
    · simp [h k hk hm]

/-- A field write of FBCTL keeps the reserved bits 0 (10_state.md R34). -/
theorem fbctlWith_reserved {w : Word} (v : Bool) (n : BitVec 5) (h : w &&& ~~~fbctlFields = 0) :
    fbctlWith w v n &&& ~~~fbctlFields = 0 := by
  rw [and_mask_eq_zero_iff] at h ⊢
  intro k hk hm
  have hplace : k ≠ 0 ∧ (k < 8 ∨ 12 < k) := by revert k; decide
  rw [getLsbD_fbctlWith_reserved w v n k hk hplace.1 hplace.2]
  exact h k hk hm

/-- No event sets a reserved bit of STATUS (10_state.md R32). -/
theorem statusReserved_after_step {s t : State} (h : step s = .next t) (hs : s.block.status &&& statusReserved = 0) :
    t.block.status &&& statusReserved = 0 := by
  rw [and_mask_eq_zero_iff] at hs ⊢
  intro k hk hm
  have hplace : k ≠ 0 ∧ k ≠ 1 ∧ k ≠ 2 ∧ k ≠ 3 ∧ ¬ (8 ≤ k ∧ k ≤ 11) ∧ k ≠ 12 := by clear hs; revert k; decide
  by_contra hset
  rcases statusBit_set h hk (hs k hk hm) (by simpa using hset) with
    ⟨c, -, h1 | hill | ⟨h2, -⟩ | ⟨h3, -⟩⟩ | ⟨h0, -⟩ | h12 <;> omega

/-- No host write reaches IR (10_state.md R30). -/
theorem hostWrite_ir (b : Block) (off : BitVec 8) (w : Nat) (v : Word) : (b.hostWrite off w v).ir = b.ir := by
  rcases hostWrite_cases b off w v with ⟨-, e⟩ | ⟨-, -, e⟩ | ⟨-, -, e⟩ | ⟨-, -, e⟩ | ⟨-, -, -, -, e⟩ <;> rw [e]
  · exact Block.issue_ir b v
  · exact (writeBytes_keeps _ _ _).2.2

/-- IR after a step: as before, the quotient DECODE writes, or 0 after a reset (10_state.md R30). -/
theorem ir_after_step {s t : State} (h : step s = .next t) :
    irKeptOrQuotient s.block t.block ∨ t.block = Block.reset := by
  cases step_blockMove h with
  | completion c r _ _ ir block => rw [block]; exact .inl ir
  | keep block => rw [block]; exact .inl (.inl rfl)
  | write off w v _ _ _ block => rw [block]; exact .inl (.inl (hostWrite_ir _ off w v))
  | reset _ _ block => exact .inr block

/-- A write that keeps BUSY and PEND keeps their agreement (10_state.md R38). -/
theorem busy_iff_pend_of_eq {b b' : Block} (hbusy : b'.status.getLsbD 0 = b.status.getLsbD 0) (hpend : b'.pend = b.pend)
    (h : b.busy = b.pend.isSome) : b'.busy = b'.pend.isSome := by
  rw [Block.busy, hbusy, hpend]
  exact h

/-- BUSY = 1 exactly when PEND is held, through every host write (10_state.md R38). -/
theorem busy_iff_pend_hostWrite {b : Block} (off : BitVec 8) (w : Nat) (v : Word) (h : b.busy = b.pend.isSome) :
    (b.hostWrite off w v).busy = (b.hostWrite off w v).pend.isSome := by
  rcases hostWrite_cases b off w v with ⟨-, e⟩ | ⟨-, -, e⟩ | ⟨-, -, e⟩ | ⟨-, -, e⟩ | ⟨-, -, -, -, e⟩ <;> rw [e]
  · exact busy_iff_pend_of_eq (getLsbD_statusAfterWrite _ _ _ (by decide)) rfl h
  · exact busy_iff_pend_of_eq (getLsbD_setBit _ _ _ _ (by decide)) rfl h
  · rw [Block.busy, Block.issue_status, getLsbD_setBit _ _ _ _ (by decide)]
    rfl
  · exact busy_iff_pend_of_eq rfl rfl h
  · refine busy_iff_pend_of_eq ?_ (writeBytes_keeps _ _ _).2.1 h
    rcases writeBytes_status b off.toNat (lanes w v) 0 (by decide) with hkeep | ⟨hkeyv, -⟩
    · exact hkeep
    · cases hkeyv

/-- A completion ends with the engine free: DONE = 1, BUSY = 0, PEND empty (30_encoding.md R88). -/
theorem release_free (b : Block) : b.release.done = true ∧ b.release.busy = false ∧ b.release.pend = none :=
  ⟨getLsbD_release_status b 1 (by decide), getLsbD_release_status b 0 (by decide), rfl⟩

/-- BUSY = 1 exactly when PEND is held, through every step (10_state.md R38). -/
theorem busy_iff_pend_after_step {s t : State} (h : step s = .next t) (hs : s.block.busy = s.block.pend.isSome) :
    t.block.busy = t.block.pend.isSome := by
  cases step_blockMove h with
  | completion c r _ _ _ block =>
    obtain ⟨-, hbusy, hpend⟩ := release_free r
    rw [block, hbusy, hpend]
    rfl
  | keep block => rw [block, hs]
  | write off w v _ _ _ block => rw [block]; exact busy_iff_pend_hostWrite off w v hs
  | reset _ _ block => rw [block]; decide

/-- The block after a reset satisfies the invariant. -/
theorem reset_inv : Block.reset.Inv := ⟨by decide, by decide, by decide, by decide, by decide⟩

/-- FBCTL's part of the invariant through every step (10_state.md R34, R35). -/
theorem fbctlInv_after_step {s t : State} (h : step s = .next t) (hs : s.block.Inv) :
    t.block.fbctl &&& ~~~fbctlFields = 0 ∧ t.block.fblen ≤ 16 := by
  rcases fbctl_after_step h with hkeep | ⟨-, v, n, hn, hwrite⟩ | ⟨hreset, -⟩
  · rw [Block.fblen, hkeep]
    exact ⟨hs.fbctl_reserved, hs.fblen_le⟩
  · rw [Block.fblen, hwrite, fblenField_fbctlWith]
    exact ⟨fbctlWith_reserved v n hs.fbctl_reserved, hn⟩
  · rw [hreset]
    exact ⟨reset_inv.fbctl_reserved, reset_inv.fblen_le⟩

/-- IR's part of the invariant through every step (10_state.md R30). -/
theorem irRange_after_step {s t : State} (h : step s = .next t) (hs : s.block.Inv) :
    -1 ≤ t.block.resI ∧ t.block.resI ≤ 18446744073709551 := by
  rcases ir_after_step h with (hkeep | hquotient) | hreset
  · rw [Block.resI, hkeep]
    exact hs.ir_range
  · have hrange := decode_quotient_range s.block.opA s.block.noise (beUint_reg8_lt _) (noise_lt _)
    rw [Block.resI, hquotient, beSint64_sintReg _ (by omega) (by omega)]
    exact hrange
  · rw [hreset]
    exact reset_inv.ir_range

/-- Settles O10: each part of the invariant is kept by its own rule about what a step does to that field. -/
theorem stepKeepsInvariant : Obligations.StepKeepsInvariant := by
  intro s t hinv h
  obtain ⟨hreserved, hfblen⟩ := fbctlInv_after_step h hinv
  exact ⟨busy_iff_pend_after_step h hinv.busy_iff_pend, statusReserved_after_step h hinv.status_reserved, hreserved, hfblen,
    irRange_after_step h hinv⟩

/-! ### KEYV, SCLOSED, BUSY, DONE and the error bits -/

/-- Settles O16: the rows of the transition matrix for STATUS bit 2. -/
theorem keyvSetByKeyloadClearedByKeyWriteOrReset : Obligations.KeyvSetByKeyloadClearedByKeyWriteOrReset := by
  intro s t h
  refine ⟨fun hs ht => ?_, fun hs ht => ?_⟩
  · simpa using statusBit_set (k := 2) h (by decide) hs ht
  · simpa using statusBit_cleared (k := 2) h (by decide) hs ht

/-- Settles O17: the rows of the transition matrix for STATUS bit 3. -/
theorem sclosedSetByShortBlockClearedByPassStart : Obligations.SclosedSetByShortBlockClearedByPassStart := by
  intro s t h
  refine ⟨fun hs ht => ?_, fun hs ht => ?_⟩
  · simpa using statusBit_set (k := 3) h (by decide) hs ht
  · simpa [and_or_left, exists_or, or_assoc] using statusBit_cleared (k := 3) h (by decide) hs ht

/-- DONE and the error bits are cleared by a STATUS write of 1 or a reset only (10_state.md R33). -/
theorem clearableBit_cleared {s t : State} {k : Nat} (h : step s = .next t) (hk : k ∈ [1, 8, 9, 10, 11, 12])
    (hs : s.block.status.getLsbD k = true) (ht : t.block.status.getLsbD k = false) :
    ∃ rest, s.host.inputs = .reset :: rest ∨ ∃ w, s.host.inputs = .write 0xC4 32 w :: rest ∧ w.getLsbD k = true := by
  have hplace : k < 32 ∧ k ≠ 0 ∧ k ≠ 2 ∧ k ≠ 3 := by
    simp only [List.mem_cons, List.not_mem_nil, or_false] at hk
    omega
  obtain ⟨hlt, n0, n2, n3⟩ := hplace
  rcases statusBit_cleared h hlt hs ht with
    ⟨c, -, h0 | ⟨h3, -⟩⟩ | ⟨-, w, rest, hin, hone⟩ | ⟨h2, -⟩ | ⟨rest, hin⟩
  · exact absurd h0 n0
  · exact absurd h3 n3
  · exact ⟨rest, .inr ⟨w, hin, hone⟩⟩
  · exact absurd h2 n2
  · exact ⟨rest, .inl hin⟩

/-- Settles O18: the rows of the transition matrix for STATUS bits 0 and 1, and the end of a completion. -/
theorem busyAndDoneFollowIssueAndCompletion : Obligations.BusyAndDoneFollowIssueAndCompletion := by
  intro s t h
  refine ⟨fun hs ht => ?_, fun hs ht => ?_, ?_, fun hs ht => ?_, fun hs ht => ?_⟩
  · simpa using statusBit_set (k := 0) h (by decide) hs ht
  · simpa using statusBit_cleared (k := 0) h (by decide) hs ht
  · rintro ⟨c, hc⟩
    obtain ⟨-, r, -, -, hblock⟩ := step_of_completes hc h
    rw [hblock]
    exact release_free r
  · simpa using statusBit_set (k := 1) h (by decide) hs ht
  · exact clearableBit_cleared h (by decide) hs ht

/-- Settles O22: the STATUS write bit by bit, and the events that clear an error bit. -/
theorem statusWriteClearsWrittenOnesAndErrorsAreSticky : Obligations.StatusWriteClearsWrittenOnesAndErrorsAreSticky := by
  refine ⟨fun s w rest h => ?_, fun s t k h low high hs ht => ?_⟩
  · refine ⟨statusAfterWrite s.block.status w, ?_, fun k hk => getLsbD_statusAfterWrite _ _ k hk⟩
    rw [step_write_block h (by decide) (by decide)]
    rfl
  · have hclearable : k ∈ [1, 8, 9, 10, 11, 12] := by
      simp only [List.mem_cons, List.not_mem_nil, or_false]
      omega
    exact clearableBit_cleared h hclearable hs ht

end Sys2Proof.Proofs
end

section
/-! What host writes and reads do: FBCTL, KEY, the result registers, the contents a read answers, and that none of it shows
KEY (10_state.md R23 to R35, 20_memory.md R52 to R58). -/

namespace Sys2Proof.Proofs

open Sys2Proof Sys2Proof.Machine Sys2Proof.Claims

/-! ### Writes -/

/-- Settles O23: an FBCTL write while idle writes the two fields, FBLEN clamped. -/
theorem fbctlWriteClampsFblenTo16 : Obligations.FbctlWriteClampsFblenTo16 := by
  intro s w rest h hidle
  refine ⟨fbctlAfterWrite s.block.fbctl w, ?_, fbv_fbctlWith _ _ _, ?_, getLsbD_fbctlWith_reserved _ _ _⟩
  · rw [step_write_block h (by decide) (by decide), Block.hostWrite, hidle]
    rfl
  · exact (congrArg BitVec.toNat (fblenField_fbctlWith _ _ _)).trans (clampFblen_toNat _)

/-- Setting a bit twice is setting it once. -/
theorem setBit_setBit (w : Word) (k : Nat) (v : Bool) : setBit (setBit w k v) k v = setBit w k v := by
  apply BitVec.eq_of_getLsbD_eq
  intro j hj
  simp only [getLsbD_setBit _ _ _ _ hj]
  split <;> rfl

/-- STATUS after byte writes into KEY: KEYV is cleared, unless there is no byte (10_state.md R23). -/
def statusAfterKeyBytes (st : Word) (xs : Bytes) : Word := if xs = [] then st else setBit st bitKeyv false

/-- Bytes written into KEY stand where they are written and clear KEYV; nothing else changes (10_state.md R23). -/
theorem writeBytes_key (b : Block) (a : Nat) (xs : Bytes) (h : a + xs.length ≤ 0x20) :
    ∃ key' : Vector Byte 32, b.writeBytes a xs = { b with key := key', status := statusAfterKeyBytes b.status xs }
      ∧ ∀ (j : Nat) (hj : j < 32), key'[j] =
          if a ≤ j ∧ j < a + xs.length then xs.getD (j - a) 0 else b.key[j] := by
  induction xs generalizing b a with
  | nil => exact ⟨b.key, rfl, fun j hj => by rw [if_neg (by simp)]⟩
  | cons x xs ih =>
    simp only [List.length_cons] at h ⊢
    have hx := writeByte_of_key b a x (by omega)
    obtain ⟨key', e, hkey⟩ := ih (b.writeByte a x) (a + 1) (by omega)
    refine ⟨key', ?_, fun j hj => ?_⟩
    · rw [Block.writeBytes, e, hx]
      cases xs
      · rfl
      · simp only [statusAfterKeyBytes, reduceCtorEq, if_false, setBit_setBit]
    · simp only [hkey j hj, hx, Vector.getElem_setIfInBounds]
      by_cases here : a = j
      · subst here
        simp
      · by_cases later : a + 1 ≤ j ∧ j < a + 1 + xs.length
        · rw [if_pos later, if_pos (by omega), show j - a = j - (a + 1) + 1 by omega, List.getD_cons_succ]
        · rw [if_neg later, if_neg here, if_neg (by omega)]

/-- A byte write into BLK_OUT, ER or IR is ignored (10_state.md R25, R28, R30). -/
theorem writeByte_readOnly (b : Block) (a : Nat) (x : Byte) (h : readOnlyOffset a) : b.writeByte a x = b := by
  unfold readOnlyOffset at h
  rcases writeByte_cases b a x with h' | h' | h' | h' | h' | h' | ⟨-, e⟩
  case inr.inr.inr.inr.inr.inr => exact e
  all_goals omega

/-- Byte writes inside BLK_OUT, ER or IR are ignored (10_state.md R25, R28, R30). -/
theorem writeBytes_readOnly (b : Block) (a : Nat) (xs : Bytes) (h : ∀ i, i < xs.length → readOnlyOffset (a + i)) :
    b.writeBytes a xs = b := by
  induction xs generalizing a with
  | nil => rfl
  | cons x xs ih =>
    rw [Block.writeBytes, writeByte_readOnly b a x (h 0 (by simp))]
    refine ih (a + 1) fun i hi => ?_
    rw [Nat.add_assoc, Nat.add_comm 1 i]
    exact h (i + 1) (by simpa using hi)

/-- A legal access that begins in BLK_OUT, ER or IR lies in it (20_memory.md R51). -/
theorem readOnlyOffset_of_legal {off : BitVec 8} {w : Nat} (hl : legal off w = true) (h : readOnlyOffset off.toNat)
    (i : Nat) (hi : i < w / 8) : readOnlyOffset (off.toNat + i) := by
  unfold readOnlyOffset at h ⊢
  rcases legal_width hl with ⟨rfl, -⟩ | ⟨rfl, aligned⟩ <;> omega

/-- Settles O29: the write goes byte by byte, and each byte is ignored. -/
theorem resultRegistersIgnoreHostWrites : Obligations.ResultRegistersIgnoreHostWrites := by
  intro s off w v rest h hl hoff hidle
  have hbelow : off.toNat < 0xC0 := by unfold readOnlyOffset at hoff; omega
  rw [step_write_bytes h hl hbelow hidle, writeBytes_readOnly]
  · rfl
  · rw [lanes_length hl]
    exact readOnlyOffset_of_legal hl hoff

/-! ### Reads -/

/-- The offsets outside BLK_OUT, FB, ER, IR and FBCTL (10_state.md R40). -/
theorem resultOffset_eq_false_iff (a : Nat) :
    resultOffset a = false ↔ a < 0x40 ∨ (0x70 ≤ a ∧ a < 0x90) ∨ (0x98 ≤ a ∧ a < 0xA0) ∨ (0xA8 ≤ a ∧ a ≠ 0xC8) := by
  simp only [resultOffset, Bool.or_eq_false_iff, Bool.and_eq_false_iff, decide_eq_false_iff_not, beq_eq_false_iff_ne]
  omega

/-- KEY reads 0, also while BUSY = 1 (10_state.md R23, R40). -/
theorem readByte_key (b : Block) (d : Byte) (a : Nat) (h : a < 0x20) : b.readByte d a = 0 := by
  have hresult : resultOffset a = false := (resultOffset_eq_false_iff a).2 (by omega)
  rw [Block.readByte, hresult, Bool.and_false, if_neg Bool.false_ne_true, if_pos h]

/-- A legal read of KEY answers 0 (10_state.md R23, 70_reset_and_hazards.md R237). -/
theorem readValue_key (b : Block) (k : Nat) {off : BitVec 8} {w : Nat} (h : off.toNat < 0x20) (hl : legal off w = true) :
    b.readValue k off w = 0 := by
  have hend := legal_end_le hl (by decide) h
  rcases legal_width hl with ⟨rfl, -⟩ | ⟨rfl, -⟩
  · rw [readValue_eight b k off (by omega), readByte_key _ _ _ h]
    rfl
  · rw [readValue_word b k off (by omega), readByte_key _ _ _ (by omega), readByte_key _ _ _ (by omega),
      readByte_key _ _ _ (by omega), readByte_key _ _ _ (by omega)]
    rfl

/-- Settles O26: the lanes of the write stand in KEY, most significant first; every byte of KEY reads 0. -/
theorem keyWriteStoresAndClearsKeyvAndReadsZero : Obligations.KeyWriteStoresAndClearsKeyvAndReadsZero := by
  refine ⟨fun s off w v rest h hl hoff hidle => ?_, fun b k off w hoff hl => readValue_key b k hoff hl⟩
  have hend := legal_end_le hl (by decide) hoff
  have hlen := lanes_length hl v
  have hsome : lanes w v ≠ [] := by
    rcases legal_width hl with ⟨rfl, -⟩ | ⟨rfl, -⟩ <;> exact List.cons_ne_nil _ _
  obtain ⟨key', e, hkey⟩ := writeBytes_key s.block off.toNat (lanes w v) (by omega)
  refine ⟨key', setBit s.block.status bitKeyv false, ?_, fun k hk => ?_, fun j hj => ?_⟩
  · rw [step_write_bytes h hl (by omega) hidle, e, statusAfterKeyBytes, if_neg hsome]
  · simp [getLsbD_setBit _ _ _ _ hk]
  · rw [hkey j hj, hlen]
    by_cases inside : off.toNat ≤ j ∧ j < off.toNat + w / 8
    · rw [if_pos inside, if_pos inside, lanes_getD hl v _ (by omega),
        show w / 8 - 1 - (j - off.toNat) = off.toNat + w / 8 - 1 - j by omega]
    · rw [if_neg inside, if_neg inside]

/-- Where the readable registers lie: they end aligned, below CMD, and the ones whose reads are no draws lie outside the
result registers (10_state.md R22, R40). -/
theorem readableRegisters_place {b : Block} {a : Nat} {S : Bytes} {draws : Bool}
    (hmem : (a, S, draws) ∈ readableRegisters b) :
    (a + S.length) % 4 = 0 ∧ a + S.length ≤ 0xA8
      ∧ (draws = false → ∀ x, a ≤ x → x < a + S.length → resultOffset x = false) := by
  simp only [readableRegisters, List.mem_cons, List.not_mem_nil, or_false, Prod.mk.injEq] at hmem
  simp only [resultOffset_eq_false_iff]
  rcases hmem with ⟨rfl, rfl, rfl⟩ | ⟨rfl, rfl, rfl⟩ | ⟨rfl, rfl, rfl⟩ | ⟨rfl, rfl, rfl⟩ | ⟨rfl, rfl, rfl⟩ |
    ⟨rfl, rfl, rfl⟩ | ⟨rfl, rfl, rfl⟩ | ⟨rfl, rfl, rfl⟩ <;> rw [Vector.length_toList] <;>
    exact ⟨by decide, by decide, fun hfixed x low high => by cases hfixed <;> omega⟩

/-- A byte read that is no draw answers the register's byte at the offset (20_memory.md R54). -/
theorem readByte_register {b : Block} {a : Nat} {S : Bytes} {draws : Bool}
    (hmem : (a, S, draws) ∈ readableRegisters b) (held : draws = false ∨ b.busy = false) (d : Byte) (x : Nat)
    (low : a ≤ x) (high : x < a + S.length) : b.readByte d x = S.getD (x - a) 0 := by
  have hnodraw : (b.busy && resultOffset x) = false := by
    rcases held with hfixed | hidle
    · rw [(readableRegisters_place hmem).2.2 hfixed x low high, Bool.and_false]
    · rw [hidle, Bool.false_and]
  rw [Block.readByte, hnodraw, if_neg Bool.false_ne_true]
  simp only [readableRegisters, List.mem_cons, List.not_mem_nil, or_false, Prod.mk.injEq] at hmem
  rcases hmem with ⟨rfl, rfl, -⟩ | ⟨rfl, rfl, -⟩ | ⟨rfl, rfl, -⟩ | ⟨rfl, rfl, -⟩ | ⟨rfl, rfl, -⟩ |
    ⟨rfl, rfl, -⟩ | ⟨rfl, rfl, -⟩ | ⟨rfl, rfl, -⟩ <;> rw [Vector.length_toList] at high <;>
    simp (disch := omega) only [if_pos, if_neg]

/-- The first `n` bytes after `i`, where they exist. -/
theorem take_drop_eq_map_getD (S : Bytes) (i n : Nat) (h : i + n ≤ S.length) :
    (S.drop i).take n = (List.range n).map fun j => S.getD (i + j) 0 := by
  apply List.ext_getElem
  · simp; omega
  · intro j _ hj
    simp at hj
    simp [List.getElem?_eq_getElem (show i + j < S.length by omega)]

/-- A legal read that is no draw answers the register's bytes at the offset, big-endian (20_memory.md R54). -/
theorem readValue_register {b : Block} {a : Nat} {S : Bytes} {draws : Bool} (k : Nat) {off : BitVec 8} {w : Nat}
    (hmem : (a, S, draws) ∈ readableRegisters b) (held : draws = false ∨ b.busy = false) (hl : legal off w = true)
    (low : a ≤ off.toNat) (high : off.toNat < a + S.length) :
    (b.readValue k off w).toNat = beUint ((S.drop (off.toNat - a)).take (w / 8)) := by
  obtain ⟨aligned, hbelow, -⟩ := readableRegisters_place hmem
  have hend := legal_end_le hl aligned high
  have hbyte (d : Byte) (j : Nat) (hj : j < w / 8) :
      b.readByte d (off.toNat + j) = S.getD (off.toNat - a + j) 0 := by
    rw [readByte_register hmem held d _ (by omega) (by omega), show off.toNat + j - a = off.toNat - a + j by omega]
  have hfirst (d : Byte) : b.readByte d off.toNat = S.getD (off.toNat - a) 0 := readByte_register hmem held d _ low high
  rw [take_drop_eq_map_getD S _ _ (by omega)]
  rcases legal_width hl with ⟨rfl, -⟩ | ⟨rfl, -⟩
  · rw [readValue_eight b k off (by omega), hfirst, BitVec.toNat_setWidth, Nat.mod_eq_of_lt (by omega)]
    simp [beUint]
  · rw [readValue_word b k off (by omega), hfirst, hbyte _ 1 (by decide), hbyte _ 2 (by decide),
      hbyte _ 3 (by decide), BitVec.toNat_ofNat,
      Nat.mod_eq_of_lt ((beUint_lt _).trans_eq (by norm_num))]
    rfl

/-- Settles O31: the value of a legal read, register by register. -/
theorem readAnswersContentsOfTheRegister : Obligations.ReadAnswersContentsOfTheRegister := by
  intro s off w name rest h hl
  obtain ⟨t, hstep, hblock, hreplies⟩ := step_read_answers h hl
  refine ⟨t, _, hstep, hblock, hreplies, ?_, fun hkey => readValue_key _ _ hkey hl, ?_, ?_, ?_⟩
  · rintro rfl
    rfl
  · rintro rfl
    rfl
  · rintro rfl hidle
    simp [Block.readValue, hidle]
  · intro a S draws hmem low high held
    exact readValue_register _ hmem held hl low high

/-! ### Nothing on the bus depends on KEY -/

/-- The value a read answers does not depend on KEY (10_state.md R23). -/
theorem readValue_withKey (s : State) (key' : Vector Byte 32) (k : Nat) (off : BitVec 8) (w : Nat) :
    (withKey s key').block.readValue k off w = s.block.readValue k off w := rfl

/-- A write puts nothing on the bus that depends on KEY: only a busfault answers (20_memory.md R57). -/
theorem hostWrite_host (off : BitVec 8) (w : Nat) (v : Word) (s : State) :
    (hostWrite off w v s).host = if legal off w = true then s.host else (s.raiseBusfault off).host := by
  rw [hostWrite]
  cases legal off w
  · rfl
  · cases s.block.issues off <;> rfl

/-- What a read does to the host's side does not depend on KEY (20_memory.md R54, R57). -/
theorem hostRead_withKey (off : BitVec 8) (w : Nat) (name : Name) (s : State) (key' : Vector Byte 32) :
    (hostRead off w name (withKey s key')).host = (hostRead off w name s).host := by
  rw [hostRead, hostRead]
  cases legal off w <;> rfl

/-- What taking one input does to the host's side does not depend on KEY (20_memory.md R64). -/
theorem hostStep_withKey (s : State) (key' : Vector Byte 32) : (hostStep (withKey s key')).host = (hostStep s).host := by
  have hinputs : (withKey s key').host.inputs = s.host.inputs := rfl
  rw [hostStep, hostStep, hinputs]
  rcases s.host.inputs with _ | ⟨⟨off, w, v⟩ | ⟨off, w, name⟩ | _ | _, rest⟩
  · rfl
  · dsimp only
    rw [hostWrite_host, hostWrite_host]
    rfl
  · exact hostRead_withKey off w name (s.withInputs rest) key'
  · have hbusy : (withKey s key').block.busy = s.block.busy := rfl
    dsimp only
    rw [hbusy]
    cases s.block.busy
    · exact hostRead_withKey 0xC4 32 ['s'] (s.withInputs rest) key'
    · exact hostRead_withKey 0xC4 32 ['s'] s key'
  · rfl

/-- What the host's turn does to its side does not depend on KEY (20_memory.md R64). -/
theorem hostTurn_withKey (s : State) (key' : Vector Byte 32) : (hostTurn (withKey s key')).host = (hostTurn s).host := by
  have hbusy : (withKey s key').block.busy = s.block.busy := rfl
  rw [hostTurn, hostTurn, hbusy]
  cases s.block.busy
  · exact hostStep_withKey s key'
  · exact hostStep_withKey { s with delay := s.delay - 1 } key'

/-- Settles O32: a completion answers nothing; the host's turn answers the same for every KEY. -/
theorem noHostReadRevealsTheKey : Obligations.NoHostReadRevealsTheKey := by
  intro s t t' key' h h'
  have hturn : (withKey s key').engineTurn = s.engineTurn := rfl
  cases hengine : s.engineTurn with
  | some c =>
    have hc : completes s c := (engineTurn_eq_some s c).1 hengine
    have hc' : completes (withKey s key') c := hc
    exact (step_of_completes hc' h').1.trans (step_of_completes hc h).1.symm
  | none =>
    rw [step_of_engineTurn_none hengine] at h
    rw [step_of_engineTurn_none (hturn.trans hengine)] at h'
    injection h with h
    injection h' with h'
    rw [← h, ← h']
    exact hostTurn_withKey s key'

end Sys2Proof.Proofs
end

section
/-! The rules of the register window (20_memory.md): which accesses are legal, the busfault, reads and writes of the byte
registers, and what a host step leaves of a busy block (R51 to R58, R64). -/

namespace Sys2Proof.Proofs

open Sys2Proof Sys2Proof.Machine Sys2Proof.Claims

/-! ### The register map -/

/-- The offsets that belong to some register (20_memory.md R56 case 2). -/
theorem reservedOffset_eq_false_iff (a : Nat) :
    reservedOffset a = false ↔ a < 0x70 ∨ (0x80 ≤ a ∧ a < 0xA8) ∨ (0xC0 ≤ a ∧ a < 0xCC) := by
  simp only [reservedOffset, Bool.or_eq_false_iff, Bool.and_eq_false_iff, decide_eq_false_iff_not]
  omega

/-- Byte accesses reach the byte registers (20_memory.md R51). -/
theorem legal_byte_iff (off : BitVec 8) :
    legal off 8 = true ↔ off.toNat < 0x70 ∨ (0x80 ≤ off.toNat ∧ off.toNat < 0xA8) := by
  have hcases : legal off 8 = true ↔ reservedOffset off.toNat = false ∧ (off.toNat < 0xC0 ∨ 0xCB < off.toNat) := by
    simp [legal]
  rw [hcases, reservedOffset_eq_false_iff]
  omega

/-- Word accesses reach the aligned words of the byte registers, and CMD, STATUS and FBCTL (20_memory.md R51). -/
theorem legal_word_iff (off : BitVec 8) :
    legal off 32 = true ↔
      (off.toNat % 4 = 0 ∧ (off.toNat < 0x70 ∨ (0x80 ≤ off.toNat ∧ off.toNat < 0xA8)))
      ∨ off = 0xC0 ∨ off = 0xC4 ∨ off = 0xC8 := by
  have hcases : legal off 32 = true ↔ reservedOffset off.toNat = false ∧ off.toNat % 4 = 0 := by
    simp [legal]
  rw [hcases, reservedOffset_eq_false_iff]
  simp only [← BitVec.toNat_inj, BitVec.ofNat_eq_ofNat, BitVec.toNat_ofNat]
  omega

/-- Settles O20: a legal access is a byte or a word access, and each width has its own map. -/
theorem legalAccessesAreThoseOfTheRegisterMap : Obligations.LegalAccessesAreThoseOfTheRegisterMap := by
  intro off w
  by_cases h8 : w = 8
  · subst h8
    simpa using legal_byte_iff off
  by_cases h32 : w = 32
  · subst h32
    simpa using legal_word_iff off
  · have hl : legal off w ≠ true := fun hl => by
      rcases legal_width hl with ⟨hw, -⟩ | ⟨hw, -⟩
      · exact h8 hw
      · exact h32 hw
    simp [hl, h8, h32]

/-! ### Busfaults -/

/-- No step clears the busfault record (20_memory.md R57). -/
theorem busFault_after_step {s t : State} (h : step s = .next t) (hs : s.host.busFault = true) :
    t.host.busFault = true := by
  rcases step_cases s t h with ⟨c, hturn, -⟩ | ⟨-, rfl⟩
  · rw [(step_of_completes ((engineTurn_eq_some s c).1 hturn) h).1, hs]
  · exact hostTurn_busFault s hs

/-- Settles O21: an illegal access only raises the busfault, and every step keeps the record. -/
theorem busfaultChangesNoBlockStateAndStaysRecorded : Obligations.BusfaultChangesNoBlockStateAndStaysRecorded := by
  refine ⟨fun s i rest off w h hl haccess => ?_, fun s t h hs => busFault_after_step h hs⟩
  rcases haccess with ⟨v, rfl⟩ | ⟨name, rfl⟩
  · rw [step_write h, hostWrite, hl]
    rfl
  · rw [step_read h, hostRead, hl]
    rfl

/-! ### Host steps while BUSY = 1 -/

/-- A host write to a busy block writes STATUS only: DONE and the error bits (20_memory.md R52, 10_state.md R33). -/
theorem hostWrite_of_busy {b : Block} (off : BitVec 8) (w : Nat) (v : Word) (hbusy : b.busy = true) :
    ∃ st, b.hostWrite off w v = { b with status := st }
      ∧ ∀ k, k < 32 → k ∉ [1, 8, 9, 10, 11, 12] → st.getLsbD k = b.status.getLsbD k := by
  rcases hostWrite_cases b off w v with ⟨-, e⟩ | ⟨-, -, e⟩ | ⟨-, hidle, -⟩ | ⟨-, hidle, -⟩ | ⟨-, -, -, hidle, -⟩
  · refine ⟨_, e, fun k hk hother => ?_⟩
    rw [getLsbD_statusAfterWrite _ _ _ hk, if_neg fun hcleared => hother hcleared.1]
  · refine ⟨_, e, fun k hk hother => ?_⟩
    have hk12 : k ≠ bitEBusy := by rintro rfl; exact hother (by decide)
    rw [getLsbD_setBit _ _ _ _ hk, if_neg hk12]
  all_goals rw [hbusy] at hidle; cases hidle

/-- Settles O15: a host step that is no reset keeps the block or is a legal write to it. -/
theorem hostStepsLeaveBusyBlockFixed : Obligations.HostStepsLeaveBusyBlockFixed := by
  intro s i rest h hi hbusy
  have hstep := step_of_engineTurn_none (engineTurn_of_hostTakes h)
  rcases hostTurn_block s with hkeep | ⟨off, w, v, -, -, -, hwrite⟩ | ⟨rest', hreset, -⟩
  · exact ⟨hostTurn s, s.block.status, hstep, hkeep, fun _ _ _ => rfl⟩
  · obtain ⟨st, e, hst⟩ := hostWrite_of_busy off w v hbusy
    exact ⟨hostTurn s, st, hstep, hwrite.trans e, hst⟩
  · obtain ⟨hin, -⟩ := h
    rw [hin] at hreset
    exact absurd (List.cons.inj hreset).1 hi

/-! ### Writes of byte registers -/

/-- Byte writes keep BUSY (20_memory.md R52). -/
theorem writeBytes_busy (b : Block) (a : Nat) (xs : Bytes) : (b.writeBytes a xs).busy = b.busy := by
  induction xs generalizing b a with
  | nil => rfl
  | cons x xs ih => rw [Block.writeBytes, ih, writeByte_busy]

/-- Byte writes keep BLK_OUT and ER (10_state.md R25, R28). -/
theorem writeBytes_blkOut_er (b : Block) (a : Nat) (xs : Bytes) :
    (b.writeBytes a xs).blkOut = b.blkOut ∧ (b.writeBytes a xs).er = b.er := by
  induction xs generalizing b a with
  | nil => exact ⟨rfl, rfl⟩
  | cons x xs ih =>
    obtain ⟨hout, her⟩ := ih (b.writeByte a x) (a + 1)
    obtain ⟨-, -, -, her', hout'⟩ := writeByte_keeps b a x
    exact ⟨hout.trans hout', her.trans her'⟩

/-- While idle, each of the bytes written to read-write registers reads as written (20_memory.md R52, R54). -/
theorem readByte_writeBytes_same (b : Block) (a : Nat) (xs : Bytes) (d : Byte) (hidle : b.busy = false)
    (h : ∀ i, i < xs.length → readWriteOffset (a + i)) (i : Nat) (hi : i < xs.length) :
    (b.writeBytes a xs).readByte d (a + i) = xs.getD i 0 := by
  induction xs generalizing b a i with
  | nil => exact absurd hi (Nat.not_lt_zero i)
  | cons x xs ih =>
    have hidle' : (b.writeByte a x).busy = false := by rw [writeByte_busy, hidle]
    cases i with
    | zero =>
      rw [Block.writeBytes, Nat.add_zero, readByte_writeBytes_other _ _ _ _ _ hidle' (by omega)]
      exact readByte_writeByte_same b a x d hidle (h 0 hi)
    | succ i =>
      have shift (j : Nat) : a + (j + 1) = a + 1 + j := by omega
      have hrest : ∀ j, j < xs.length → readWriteOffset (a + 1 + j) := fun j hj =>
        shift j ▸ h (j + 1) (Nat.succ_lt_succ hj)
      rw [Block.writeBytes, shift i]
      exact ih _ _ hidle' hrest i (Nat.lt_of_succ_lt_succ hi)

/-- A legal access that begins in BLK_IN, FB, EA, EB or IV stays in these registers (20_memory.md R51). -/
theorem readWriteOffset_of_legal {off : BitVec 8} {w : Nat} (hl : legal off w = true) (h : readWriteOffset off.toNat)
    (i : Nat) (hi : i < w / 8) : readWriteOffset (off.toNat + i) := by
  unfold readWriteOffset at h ⊢
  rcases legal_width hl with ⟨rfl, -⟩ | ⟨rfl, aligned⟩ <;> omega

/-- While idle, a read of a read-write register at the offset and width of a write answers what was written
(20_memory.md R52, R54). -/
theorem readValue_writeBytes_lanes {b : Block} {off : BitVec 8} {w : Nat} (v : Word) (k : Nat) (hidle : b.busy = false)
    (hl : legal off w = true) (hoff : readWriteOffset off.toNat) :
    (b.writeBytes off.toNat (lanes w v)).readValue k off w = if w = 8 then (v.extractLsb' 0 8).setWidth 32 else v := by
  have hbelow : off.toNat < 0xC0 := by unfold readWriteOffset at hoff; omega
  have hlen := lanes_length hl v
  have hbyte (d : Byte) (i : Nat) (hi : i < w / 8) :
      (b.writeBytes off.toNat (lanes w v)).readByte d (off.toNat + i) = (lanes w v).getD i 0 :=
    readByte_writeBytes_same b _ _ d hidle (hlen ▸ readWriteOffset_of_legal hl hoff) i (hlen ▸ hi)
  have hfirst (d : Byte) (hw : 0 < w / 8) :
      (b.writeBytes off.toNat (lanes w v)).readByte d off.toNat = (lanes w v).getD 0 0 := hbyte d 0 hw
  rcases legal_width hl with ⟨rfl, -⟩ | ⟨rfl, -⟩
  · rw [readValue_eight _ _ _ hbelow, hfirst _ (by decide)]
    rfl
  · rw [readValue_word _ _ _ hbelow, hfirst _ (by decide), hbyte _ 1 (by decide), hbyte _ 2 (by decide), hbyte _ 3 (by decide)]
    exact beUint_lanes v

/-- Settles O27: the step writes the lanes, and the read answers them. -/
theorem readAfterWriteReturnsWrittenValue : Obligations.ReadAfterWriteReturnsWrittenValue := by
  intro s off w v rest h hl hoff hidle
  have hbelow : off.toNat < 0xC0 := by unfold readWriteOffset at hoff; omega
  exact ⟨_, step_write_bytes h hl hbelow hidle, (writeBytes_busy _ _ _).trans hidle,
    fun k => readValue_writeBytes_lanes v k hidle hl hoff⟩

/-- Settles O28: the step writes the lanes, and byte writes keep every field and byte the statement names. -/
theorem writeLeavesOtherBytesUnchanged : Obligations.WriteLeavesOtherBytesUnchanged := by
  intro s off w v rest h hl hbelow hidle
  obtain ⟨hfbctl, hpend, hir⟩ := writeBytes_keeps s.block off.toNat (lanes w v)
  obtain ⟨hout, her⟩ := writeBytes_blkOut_er s.block off.toNat (lanes w v)
  refine ⟨_, step_write_bytes h hl hbelow hidle, fun off' k hbelow' houtside => ?_, hfbctl, hpend, hout, her, hir,
    writeBytes_key_status s.block off.toNat (lanes w v)⟩
  rw [readValue_eight _ _ _ hbelow', readValue_eight _ _ _ hbelow',
    readByte_writeBytes_other _ _ _ _ _ hidle (by rwa [lanes_length hl])]

/-! ### Reads -/

/-- A byte read that is no draw does not depend on the value drawn (20_memory.md R54). -/
theorem readByte_of_no_draw {b : Block} {a : Nat} (h : b.busy = false ∨ resultOffset a = false) (d d' : Byte) :
    b.readByte d a = b.readByte d' a := by
  have hnodraw : (b.busy && resultOffset a) = false := Bool.and_eq_false_iff.2 h
  rw [Block.readByte, Block.readByte, hnodraw]
  rfl

/-- A legal access that begins outside BLK_OUT, FB, ER and IR stays outside (20_memory.md R51, 10_state.md R40). -/
theorem resultOffset_of_legal {off : BitVec 8} {w : Nat} (hl : legal off w = true) (hbelow : off.toNat < 0xC0)
    (h : resultOffset off.toNat = false) (i : Nat) (hi : i < w / 8) : resultOffset (off.toNat + i) = false := by
  rw [resultOffset_eq_false_iff] at h ⊢
  rcases legal_width hl with ⟨rfl, -⟩ | ⟨rfl, aligned⟩ <;> omega

/-- A legal read of a byte register that is no draw does not depend on the counter (20_memory.md R55). -/
theorem readValue_byteRegister_of_no_draw {b : Block} {off : BitVec 8} {w : Nat} (k k' : Nat)
    (hl : legal off w = true) (hbelow : off.toNat < 0xC0) (h : b.busy = false ∨ resultOffset off.toNat = false) :
    b.readValue k off w = b.readValue k' off w := by
  have hbyte (d d' : Byte) (i : Nat) (hi : i < w / 8) :
      b.readByte d (off.toNat + i) = b.readByte d' (off.toNat + i) :=
    readByte_of_no_draw (h.imp_right fun hresult => resultOffset_of_legal hl hbelow hresult i hi) d d'
  have hfirst (d d' : Byte) : b.readByte d off.toNat = b.readByte d' off.toNat := readByte_of_no_draw h d d'
  rcases legal_width hl with ⟨rfl, -⟩ | ⟨rfl, -⟩
  · rw [readValue_eight _ _ _ hbelow, readValue_eight _ _ _ hbelow, hfirst]
  · rw [readValue_word _ _ _ hbelow, readValue_word _ _ _ hbelow, hfirst _ (Config.drawByte k'),
      hbyte _ (Config.drawByte (k' + 1)) 1 (by decide), hbyte _ (Config.drawByte (k' + 2)) 2 (by decide),
      hbyte _ (Config.drawByte (k' + 3)) 3 (by decide)]

@[simp] theorem readValue_cmd (b : Block) (k w : Nat) : b.readValue k 0xC0 w = 0 := rfl

@[simp] theorem readValue_status (b : Block) (k w : Nat) : b.readValue k 0xC4 w = b.status := rfl

/-- FBCTL reads as it is while idle (20_memory.md R54). -/
theorem readValue_fbctl {b : Block} (k w : Nat) (hidle : b.busy = false) : b.readValue k 0xC8 w = b.fbctl := by
  simp [Block.readValue, hidle]

/-- A legal read that is no draw does not depend on the counter (20_memory.md R55). -/
theorem readValue_of_no_draw {b : Block} {off : BitVec 8} {w : Nat} (k k' : Nat) (hl : legal off w = true)
    (h : b.busy = false ∨ resultOffset off.toNat = false) : b.readValue k off w = b.readValue k' off w := by
  by_cases hbelow : off.toNat < 0xC0
  · exact readValue_byteRegister_of_no_draw k k' hl hbelow h
  obtain rfl := legal_wordRegister hl (by omega)
  rcases (legal_word_iff off).1 hl with ⟨-, hbytes⟩ | rfl | rfl | rfl
  · omega
  · rw [readValue_cmd, readValue_cmd]
  · rw [readValue_status, readValue_status]
  · have hidle : b.busy = false := h.resolve_right (by decide)
    rw [readValue_fbctl _ _ hidle, readValue_fbctl _ _ hidle]

/-- A step that takes a legal read takes the input, answers the value read and moves the counter, nothing else
(20_memory.md R54, R55). -/
theorem step_read_frame {s : State} {off : BitVec 8} {w : Nat} {name : Name} {rest : List Input}
    (h : hostTakes s (.read off w name) rest) (hl : legal off w = true) :
    step s = .next { afterInput s rest with
      host := { s.host with
        inputs := rest, replies := .data name w (s.block.readValue s.freeIdx off w) :: s.host.replies }
      freeIdx := if s.block.busy && resultOffset off.toNat then s.freeIdx + 4 else s.freeIdx } := by
  rw [step_read h, hostRead, hl]
  rfl

/-- A step that takes a read, legal or not, keeps the block (20_memory.md R55, R57). -/
theorem step_read_keeps_block {s : State} {off : BitVec 8} {w : Nat} {name : Name} {rest : List Input}
    (h : hostTakes s (.read off w name) rest) : ∃ t, step s = .next t ∧ t.block = s.block := by
  refine ⟨_, step_read h, ?_⟩
  rw [hostRead]
  cases legal off w <;> rfl

/-- Settles O30: the frame of a read, and that only draws depend on the counter. -/
theorem readsHaveNoSideEffectOnTheBlock : Obligations.ReadsHaveNoSideEffectOnTheBlock := by
  refine ⟨fun s off w name rest h => ⟨step_read_keeps_block h, fun hl => ⟨_, step_read_frame h hl⟩⟩, ?_⟩
  intro b off w k k' h hl
  exact readValue_of_no_draw k k' hl h

/-! ### Halves of the 8-byte registers -/

/-- The number a string reads as, from its two parts (00_scope.md R7). -/
theorem beUint_append (S T : Bytes) : beUint (S ++ T) = beUint S * 256 ^ T.length + beUint T := by
  induction S with
  | nil => simp [beUint]
  | cons x xs ih =>
    rw [List.cons_append, beUint, beUint, ih, List.length_append, Nat.pow_add]
    ring

/-- The number a string reads as, split after `n` bytes (00_scope.md R7). -/
theorem beUint_split (S : Bytes) (n : Nat) :
    beUint S = beUint (S.take n) * 256 ^ (S.length - n) + beUint (S.drop n) := by
  rw [← List.length_drop, ← beUint_append, List.take_append_drop]

/-- The leading bytes are the number's high part (00_scope.md R7). -/
theorem beUint_take (S : Bytes) (n : Nat) : beUint (S.take n) = beUint S / 256 ^ (S.length - n) := by
  have hlow : beUint (S.drop n) < 256 ^ (S.length - n) := by simpa using beUint_lt (S.drop n)
  rw [beUint_split S n, Nat.mul_comm, Nat.mul_add_div (by positivity), Nat.div_eq_of_lt hlow, Nat.add_zero]

/-- The other bytes are the number's low part (00_scope.md R7). -/
theorem beUint_drop (S : Bytes) (n : Nat) : beUint (S.drop n) = beUint S % 256 ^ (S.length - n) := by
  have hlow : beUint (S.drop n) < 256 ^ (S.length - n) := by simpa using beUint_lt (S.drop n)
  rw [beUint_split S n, Nat.mul_add_mod_self_right, Nat.mod_eq_of_lt hlow]

/-- A half of an 8-byte string as a part of its number (20_memory.md R58). -/
theorem beUint_half {S : Bytes} (hlen : S.length = 8) {i : Nat} (hi : i < 2) :
    beUint ((S.drop (4 * i)).take 4) = (beUint S >>> (32 * (1 - i))) % 2 ^ 32 := by
  have hlt := beUint_lt S
  rw [hlen] at hlt
  rw [beUint_take, beUint_drop, List.length_drop, hlen, Nat.shiftRight_eq_div_pow]
  interval_cases i
  · norm_num at hlt ⊢
    omega
  · norm_num

/-- A word read of an 8-byte register while idle answers one of its halves (20_memory.md R58). -/
theorem readValue_half {b : Block} {a : Nat} {S : Bytes} {draws : Bool} (k : Nat) {i : Nat}
    (hmem : (a, S, draws) ∈ readableRegisters b) (hscalar : 0x80 ≤ a) (hlen : S.length = 8) (hidle : b.busy = false)
    (hi : i < 2) :
    (b.readValue k (BitVec.ofNat 8 (a + 4 * i)) 32).toNat = (beUint S >>> (32 * (1 - i))) % 2 ^ 32 := by
  obtain ⟨aligned, htop, -⟩ := readableRegisters_place hmem
  rw [hlen] at aligned htop
  have hoff : (BitVec.ofNat 8 (a + 4 * i)).toNat = a + 4 * i := by
    rw [BitVec.toNat_ofNat, Nat.mod_eq_of_lt (by omega)]
  have hl : legal (BitVec.ofNat 8 (a + 4 * i)) 32 = true := (legal_word_iff _).2 (.inl (by rw [hoff]; omega))
  rw [readValue_register k hmem (.inr hidle) hl (by omega) (by omega), hoff, Nat.add_sub_cancel_left]
  exact beUint_half hlen hi

/-- Settles O33: each of the five registers is a readable register of 8 bytes. -/
theorem wordReadOfScalarRegisterIsItsHalf : Obligations.WordReadOfScalarRegisterIsItsHalf := by
  intro b k i hidle hi
  have half (a : Nat) (r : Vector Byte 8) (draws : Bool) (hscalar : 0x80 ≤ a)
      (hmem : (a, r.toList, draws) ∈ readableRegisters b) :
      (b.readValue k (BitVec.ofNat 8 (a + 4 * i)) 32).toNat = (beUint r.toList >>> (32 * (1 - i))) % 2 ^ 32 :=
    readValue_half k hmem hscalar r.length_toList hidle hi
  exact ⟨half 0x80 b.ea false (by decide) (by simp [readableRegisters]),
    half 0x88 b.eb false (by decide) (by simp [readableRegisters]),
    half 0x90 b.er true (by decide) (by simp [readableRegisters]),
    half 0x98 b.iv false (by decide) (by simp [readableRegisters]),
    half 0xA0 b.ir true (by decide) (by simp [readableRegisters])⟩

end Sys2Proof.Proofs
end

section
/-! The engine and the host's turn (30_encoding.md R87 to R89, R95): the step on a pending word, the STATUS bits a
completion leaves, issue, the polling loop, and that a pending command ends. -/

namespace Sys2Proof.Proofs

open Sys2Proof Sys2Proof.Machine Sys2Proof.Claims

/-! ### The step on a pending word -/

/-- The engine's step on a word that decodes (30_encoding.md R88). -/
theorem step_of_decode_some {s : State} {c : Word} {i : Instr} (hc : completes s c) (hi : decode c = some i) :
    step s = exec i s := by
  rw [step, (engineTurn_eq_some s c).2 hc]
  simp only [hi]

/-- The engine's step on an ILLEGAL word (30_encoding.md R88, 60_exceptions.md R201). -/
theorem step_of_decode_none {s : State} {c : Word} (hc : completes s c) (hn : decode c = none) :
    step s = completeIllegal s := by
  rw [step, (engineTurn_eq_some s c).2 hc]
  simp only [hn]

/-- Settles O7, by `step_of_decode_some`. -/
theorem stepRunsDecodedCommand : Obligations.StepRunsDecodedCommand :=
  fun _ _ _ hc hi => step_of_decode_some hc hi

/-- Every completion is the end of some rule, whatever the word (30_encoding.md R88). -/
theorem step_completes {s : State} {c : Word} (hc : completes s c) :
    ∃ r, step s = .next { s with block := s.block.finish r } := by
  cases hdecode : decode c with
  | some i =>
    rw [step_of_decode_some hc hdecode]
    exact exec_next i s
  | none => exact ⟨.error .eIll, step_of_decode_none hc hdecode⟩

/-- A completion leaves BUSY = 0, whether its rule raised or not (30_encoding.md R88). -/
theorem finish_busy (b : Block) (r : Except Fault Block) : (b.finish r).busy = false := by
  cases r <;> exact (release_free _).2.1

/-! ### The STATUS bits of a completion -/

theorem bitsAre_refl (st : Word) : bitsAre st st [] [] := fun k _ => by simp

theorem bitsAre_setBit (st : Word) (k : Nat) : bitsAre st (setBit st k true) [k] [] := fun j hj => by
  simp [getLsbD_setBit _ _ _ _ hj]

/-- The end of a completion adds DONE to the bits its rule set, and clears BUSY (30_encoding.md R88). -/
theorem bitsAre_release {b : Block} {st : Word} {set : List Nat} (h : bitsAre st b.status set []) (hbusy : 0 ∉ set) :
    bitsAre st b.release.status (1 :: set) [0] := by
  intro k hk
  rw [getLsbD_release_status _ _ hk, h k hk]
  by_cases h0 : k = 0
  · subst h0
    simp [hbusy]
  · by_cases h1 : k = 1 <;> simp [h0, h1]

/-- A completion whose rule raised sets its error bit and DONE, nothing else (60_exceptions.md R208). -/
theorem completeWith_error_onlyStatus (s : State) {f : Fault} {k : Nat} (hf : f.statusBit = some k) (hk : k ≠ 0) :
    onlyStatus s (completeWith (.error f) s) [1, k] := by
  refine ⟨_, completeWith_error s f k hf, ?_⟩
  exact bitsAre_release (b := { s.block with status := setBit s.block.status k true }) (bitsAre_setBit _ k)
    (by simpa using hk.symm)

/-- An ILLEGAL word records E_ILL and DONE only (60_exceptions.md R201). -/
theorem illegalCompletes_of_decode_none {c : Word} (h : decode c = none) : illegalCompletes c := by
  intro s hc
  rw [step_of_decode_none hc h]
  exact completeWith_error_onlyStatus s rfl (by decide)

/-! ### Issue -/

/-- Settles O24: the write reaches the block, which issues the word while idle and records E_BUSY while busy. -/
theorem cmdWriteIssuesWhenIdleAndIsIgnoredWhenBusy : Obligations.CmdWriteIssuesWhenIdleAndIsIgnoredWhenBusy := by
  intro s c rest h
  have hlegal : legal 0xC0 32 = true := by decide
  refine ⟨fun hidle => ⟨setBit s.block.status bitBusy true, Config.lat s.freeIdx, s.freeIdx + 1, ?_, bitsAre_setBit _ _⟩,
    fun hbusy => ⟨setBit s.block.status bitEBusy true, ?_, bitsAre_setBit _ _⟩⟩
  · have hissue : s.block.issues 0xC0 = true := by rw [Block.issues, hidle]; rfl
    have hblock : s.block.hostWrite 0xC0 32 c = s.block.issue c := by rw [Block.hostWrite, hidle]; rfl
    rw [step_write h, hostWrite, hlegal, afterInput_block, hissue, hblock]
    rfl
  · have hissue : s.block.issues 0xC0 = false := by rw [Block.issues, hbusy]; rfl
    have hblock : s.block.hostWrite 0xC0 32 c = s.block.recordFault .eBusy := by rw [Block.hostWrite, hbusy]; rfl
    rw [step_write h, hostWrite, hlegal, afterInput_block, hissue, hblock]
    rfl

/-! ### The polling loop -/

/-- Taking WAIT is a read of STATUS into `s`; the WAIT stays at the head while BUSY = 1 (30_encoding.md R95). -/
theorem hostStep_wait {s : State} {rest : List Input} (h : s.host.inputs = .wait :: rest) :
    hostStep s = hostRead 0xC4 32 ['s'] (if s.block.busy then s else s.withInputs rest) := by
  rw [hostStep, h]

/-- A step that takes WAIT (30_encoding.md R95). -/
theorem step_wait {s : State} {rest : List Input} (h : hostTakes s .wait rest) :
    step s = .next (hostRead 0xC4 32 ['s'] (afterInput s (if s.block.busy then s.host.inputs else rest))) := by
  rw [step_of_engineTurn_none (engineTurn_of_hostTakes h), hostTurn, afterInput]
  obtain ⟨hin, -⟩ := h
  cases hbusy : s.block.busy
  · rw [if_neg Bool.false_ne_true, hostStep_wait hin, hbusy]
    rfl
  · rw [if_pos rfl, hostStep_wait (s := { s with delay := s.delay - 1 }) hin, hbusy]
    rfl

/-- Settles O34: the read of STATUS answers it and leaves the block. -/
theorem waitEndsExactlyWhenBusyReadsZero : Obligations.WaitEndsExactlyWhenBusyReadsZero := by
  intro s rest h
  exact ⟨_, step_wait h, rfl, rfl, rfl⟩

/-! ### A pending command ends -/

/-- A read draws no latency (20_memory.md R55). -/
theorem hostRead_delay (off : BitVec 8) (w : Nat) (name : Name) (s : State) :
    (hostRead off w name s).delay = s.delay := by
  rw [hostRead]
  cases legal off w <;> rfl

/-- A write to a busy block issues nothing, so it draws no latency (30_encoding.md R87). -/
theorem hostWrite_delay_of_busy (off : BitVec 8) (w : Nat) (v : Word) {s : State} (hbusy : s.block.busy = true) :
    (hostWrite off w v s).delay = s.delay := by
  have hissue : s.block.issues off = false := by rw [Block.issues, hbusy, Bool.not_true, Bool.and_false]
  rw [hostWrite, hissue]
  cases legal off w <;> rfl

/-- A host input taken by a busy block draws no new latency (30_encoding.md R87, R89). -/
theorem hostStep_delay_le {s : State} (hbusy : s.block.busy = true) : (hostStep s).delay ≤ s.delay := by
  rw [hostStep]
  rcases s.host.inputs with _ | ⟨⟨off, w, v⟩ | ⟨off, w, name⟩ | _ | _, rest⟩
  · exact le_rfl
  · exact (hostWrite_delay_of_busy off w v (s := s.withInputs rest) hbusy).le
  · exact (hostRead_delay off w name _).le
  · dsimp only
    rw [hostRead_delay, hbusy]
    exact le_rfl
  · exact Nat.zero_le _

/-- The host's turn on a busy block uses up one of the engine's idle steps (30_encoding.md R89). -/
theorem hostTurn_delay_le {s : State} (hbusy : s.block.busy = true) : (hostTurn s).delay ≤ s.delay - 1 := by
  rw [hostTurn, hbusy]
  exact hostStep_delay_le (s := { s with delay := s.delay - 1 }) hbusy

/-- The host's turn on a busy block keeps the pending word, unless it resets the block (10_state.md R38,
20_memory.md R52). -/
theorem hostTurn_pend {s : State} (hbusy : s.block.busy = true) :
    (hostTurn s).block.busy = false ∨ (hostTurn s).block.pend = s.block.pend := by
  rcases hostTurn_block s with hkeep | ⟨off, w, v, -, -, -, hwrite⟩ | ⟨-, -, hreset⟩
  · exact .inr (congrArg Block.pend hkeep)
  · obtain ⟨st, e, -⟩ := hostWrite_of_busy off w v hbusy
    exact .inr (by rw [hwrite, e])
  · exact .inl (by rw [hreset]; decide)

/-- One step of a run. -/
theorem run_succ {s t : State} (k : Nat) (h : step s = .next t) : core.run (k + 1) s = core.run k t := by
  have hcore : core.step s = .next t := h
  simp only [Host.Core.run, hcore]

/-- A pending command ends, by induction on a bound of the idle steps left: the engine completes it, or the host's turn
ends it by a reset or uses up an idle step (30_encoding.md R89, 70_reset_and_hazards.md R243). -/
theorem pending_ends (d : Nat) (s : State) (hd : s.delay ≤ d) (hbusy : s.block.busy = true)
    (hpend : s.block.pend.isSome = true) : ∃ k, k ≤ d + 1 ∧ ∃ t, core.run k s = .next t ∧ t.block.busy = false := by
  induction d generalizing s with
  | zero =>
    obtain ⟨c, hc⟩ := Option.isSome_iff_exists.1 hpend
    obtain ⟨r, hstep⟩ := step_completes ⟨hbusy, hc, .inl (Nat.le_zero.1 hd)⟩
    exact ⟨1, le_rfl, _, run_succ 0 hstep, finish_busy _ r⟩
  | succ d ih =>
    cases hturn : s.engineTurn with
    | some c =>
      obtain ⟨r, hstep⟩ := step_completes ((engineTurn_eq_some s c).1 hturn)
      exact ⟨1, by omega, _, run_succ 0 hstep, finish_busy _ r⟩
    | none =>
      have hstep := step_of_engineTurn_none hturn
      cases hafter : (hostTurn s).block.busy with
      | false => exact ⟨1, by omega, _, run_succ 0 hstep, hafter⟩
      | true =>
        have hkeep : (hostTurn s).block.pend = s.block.pend := (hostTurn_pend hbusy).resolve_left (by simp [hafter])
        have hless := hostTurn_delay_le hbusy
        obtain ⟨k, hk, t, hrun, hidle⟩ := ih (hostTurn s) (by omega) hafter (hkeep ▸ hpend)
        exact ⟨k + 1, by omega, t, (run_succ k hstep).trans hrun, hidle⟩

/-- Settles O14: `pending_ends` with the latency itself as the bound. -/
theorem pendingCommandCompletesInBoundedSteps : Obligations.PendingCommandCompletesInBoundedSteps :=
  fun s hbusy hpend => pending_ends s.delay s le_rfl hbusy hpend

end Sys2Proof.Proofs
end

section
/-! The decoder and the encoder (30_encoding.md R80 to R85, R90): the round trips, the pattern table, the ILLEGAL words,
the words of a command with LEN, and the assembler. -/

namespace Sys2Proof.Proofs

open Sys2Proof Sys2Proof.Machine Sys2Proof.Claims Sys2Proof.Laws

/-! ### The round trips -/

/-- The decoder on an encoder's word with LEN (30_encoding.md R90). -/
theorem decode_wordWithLen (m : Word) (n : Nat) (hm : m.toNat < 256) (hn : n ≤ 63) :
    decode (wordWithLen m n) = decodeOp m.toNat n := by
  rw [wordWithLen_eq m n hm hn, decode_ofNat _ _ hm (by omega)]

/-- Settles O1: one word for each command without LEN, `decode_wordWithLen` for the others. -/
theorem decodeOfEncodeIsIdentity : Obligations.DecodeOfEncodeIsIdentity := by
  intro i hwf
  cases i with
  | gen n => exact decode_wordWithLen 0x02 n (by decide) (of_decide_eq_true hwf)
  | senc n => exact decode_wordWithLen 0x04 n (by decide) (of_decide_eq_true hwf)
  | sdec n => exact decode_wordWithLen 0x05 n (by decide) (of_decide_eq_true hwf)
  | nop | keyload | sinit | encode | decode | add | scale => decide

/-- LEN is a 6-bit field, so what decodes is well formed (30_encoding.md R82). -/
theorem wf_of_decode {c : Word} {i : Instr} (h : decode c = some i) : i.wf = true := by
  have hlen : (lenField c).toNat ≤ 63 := Nat.le_of_lt_succ (lenField c).isLt
  obtain ⟨hop, -⟩ := decode_some c i h
  rcases decodeOp_cases _ _ _ hop with ⟨-, -, rfl⟩ | ⟨-, -, rfl⟩ | ⟨-, rfl⟩ | ⟨-, -, rfl⟩ | ⟨-, rfl⟩ | ⟨-, rfl⟩ |
    ⟨-, -, rfl⟩ | ⟨-, -, rfl⟩ | ⟨-, -, rfl⟩ | ⟨-, -, rfl⟩ <;> simp [Instr.wf, lenOk, hlen]

/-- Settles O2: the word and the encoding of its command decode to the same command, and decoding is injective. -/
theorem decodedWordIsItsEncoding : Obligations.DecodedWordIsItsEncoding := by
  intro c i h
  have hwf := wf_of_decode h
  exact ⟨hwf, decode_injective (decodeOfEncodeIsIdentity i hwf) h⟩

/-! ### The pattern table and the ILLEGAL words -/

/-- The decoder on a word with RSV = 0 (30_encoding.md R85). -/
theorem decode_of_rsv_zero {c : Word} (h : rsvField c = 0) :
    decode c = decodeOp (opField c).toNat (lenField c).toNat := if_pos h

/-- A word with RSV ≠ 0 is ILLEGAL (30_encoding.md R85). -/
theorem decode_of_rsv_ne_zero {c : Word} (h : rsvField c ≠ 0) : decode c = none := if_neg h

/-- A word that meets the match of a row with LEN has that row's opcode (30_encoding.md R84). -/
theorem decode_of_lenRow {c m : Word} (hm : m.toNat < 256) (h : c &&& 0xFFFFC0FF#32 = m) :
    decode c = decodeOp m.toNat (lenField c).toNat := by
  obtain ⟨hrsv, hop⟩ := (and_lenMask_eq c m hm).1 h
  rw [decode_of_rsv_zero hrsv, hop]

/-- A word that meets the match of a row without LEN is that row's word (30_encoding.md R84). -/
theorem decode_of_fullRow {c m : Word} {i : Instr} (hi : decode m = some i) (h : c &&& 0xFFFFFFFF#32 = m) :
    decode c = some i := by
  rwa [(and_fullMask_eq c m).1 h]

/-- A word that meets a row decodes to the row's command (30_encoding.md R85). -/
theorem decode_of_row {c : Word} {r : Row} (hr : r ∈ rows) (h : c &&& r.mask = r.matchWord) :
    decode c = some (r.build (lenField c).toNat) := by
  simp only [rows, List.mem_cons, List.not_mem_nil, or_false] at hr
  rcases hr with rfl | rfl | rfl | rfl | rfl | rfl | rfl | rfl | rfl | rfl
  case inr.inr.inl => exact decode_of_lenRow (by decide) h
  case inr.inr.inr.inr.inl => exact decode_of_lenRow (by decide) h
  case inr.inr.inr.inr.inr.inl => exact decode_of_lenRow (by decide) h
  all_goals exact decode_of_fullRow (by dsimp only; decide) h

/-- Every well-formed command's word meets its row (30_encoding.md R84). -/
theorem encodingFitsRow (i : Instr) : EncodingFitsRow.Statement i := by
  cases i with
  | nop => exact EncodingFitsRow.nop
  | keyload => exact EncodingFitsRow.keyload
  | gen n => exact EncodingFitsRow.gen n
  | sinit => exact EncodingFitsRow.sinit
  | senc n => exact EncodingFitsRow.senc n
  | sdec n => exact EncodingFitsRow.sdec n
  | encode => exact EncodingFitsRow.encode
  | decode => exact EncodingFitsRow.decode
  | add => exact EncodingFitsRow.add
  | scale => exact EncodingFitsRow.scale

/-- A word that decodes meets some row (30_encoding.md R84). -/
theorem row_of_decode {c : Word} {i : Instr} (h : decode c = some i) : ∃ r ∈ rows, c &&& r.mask = r.matchWord := by
  obtain ⟨hwf, rfl⟩ := decodedWordIsItsEncoding c i h
  exact ⟨_, List.getElem_mem (rowIndex i).isLt, beq_iff_eq.1 (encodingFitsRow i hwf)⟩

theorem withoutLen_eq_none_iff (len : Nat) (i : Instr) : withoutLen len i = none ↔ len ≠ 0 := by
  rw [withoutLen]
  split <;> simp_all

/-- Where the opcode map answers no command: an unassigned opcode, or LEN ≠ 0 with a command without LEN
(30_encoding.md R85 items 1 and 3). -/
theorem decodeOp_eq_none_iff (op len : Nat) :
    decodeOp op len = none ↔ ((op = 0x06 ∨ op = 0x07) ∨ 0x0C ≤ op)
      ∨ (len ≠ 0 ∧ op ∈ [0x00, 0x01, 0x03, 0x08, 0x09, 0x0A, 0x0B]) := by
  unfold decodeOp
  split
  case h_11 =>
    simp only [imp_false] at *
    simp only [List.mem_cons, List.not_mem_nil, or_false, true_iff]
    omega
  all_goals simp [withoutLen_eq_none_iff]

/-- The three kinds of ILLEGAL words (30_encoding.md R85). -/
theorem decode_eq_none_iff (c : Word) :
    decode c = none ↔
      (opField c ∈ [0x06#8, 0x07#8] ∨ 0x0C#8 ≤ opField c) ∨ rsvField c ≠ 0
      ∨ (lenField c ≠ 0 ∧ opField c ∈ [0x00#8, 0x01#8, 0x03#8, 0x08#8, 0x09#8, 0x0A#8, 0x0B#8]) := by
  by_cases hrsv : rsvField c = 0
  · rw [decode_of_rsv_zero hrsv, decodeOp_eq_none_iff]
    simp [hrsv, BitVec.le_def, ← BitVec.toNat_inj]
  · exact iff_of_true (decode_of_rsv_ne_zero hrsv) (.inr (.inl hrsv))

/-- Settles O3: rows by `decode_of_row` and `row_of_decode`, ILLEGAL words by `decode_eq_none_iff`. -/
theorem decodeFollowsMatchAndMask : Obligations.DecodeFollowsMatchAndMask := by
  refine fun c => ⟨fun r hr h => decode_of_row hr h, fun hnone => ?_, decode_eq_none_iff c,
    illegalCompletes_of_decode_none, effLen_eq _⟩
  rw [Option.eq_none_iff_forall_ne_some]
  intro i hi
  obtain ⟨r, hr, hhit⟩ := row_of_decode hi
  exact hnone r hr hhit

/-- Settles O4: fifteen closed words, each evaluated by the decoder. -/
theorem specWordsDecodeAsListed : Obligations.SpecWordsDecodeAsListed := by
  unfold Obligations.SpecWordsDecodeAsListed
  decide

/-! ### The words of a command with LEN, and the assembler -/

/-- The words of an opcode that the map gives to a command with LEN: RSV = 0 and any LEN (30_encoding.md R84, R85). -/
theorem lenWords_of_decodeOp {op : BitVec 8} {i : Nat → Instr} (h : ∀ n, decodeOp op.toNat n = some (i n)) :
    lenWords op i := by
  refine ⟨fun n hn => ?_, fun c hop => ⟨fun hrsv => ?_, fun hrsv => ?_⟩⟩
  · have hdecode := decode_ofNat op.toNat n op.isLt (by omega)
    exact (decodedWordIsItsEncoding _ _ (hdecode.trans (h n))).2
  · have hfield : opField c = op := hop
    rw [decode_of_rsv_zero hrsv, hfield]
    exact h _
  · have hnone := decode_of_rsv_ne_zero hrsv
    exact ⟨hnone, illegalCompletes_of_decode_none hnone⟩

/-- Settles O6: a command with LEN has a word when `lenOk` says so, one without always. -/
theorem assembleProducesWordExactlyForLegalLen : Obligations.AssembleProducesWordExactlyForLegalLen := by
  intro n
  have hlen (m : Word) : (if lenOk n then some (wordWithLen m n) else none)
      = if n ≤ 63 then some (m ||| (BitVec.ofNat 32 n <<< 8)) else none := if_congr decide_eq_true_iff rfl rfl
  exact ⟨hlen _, hlen _, hlen _, rfl, rfl, rfl, rfl, rfl, rfl, rfl⟩

end Sys2Proof.Proofs
end

section
/-! GEN, SENC and SDEC (40_keystream.md R110, 41_stream.md R132, R133): what each writes, by the block's length, and what
each records when it raises. -/

namespace Sys2Proof.Proofs

open Sys2Proof Sys2Proof.Machine Sys2Proof.Claims

/-! ### Lengths -/

/-- The block operand has its effective length (10_state.md R24). -/
theorem blockOperand_length (b : Block) (len : Nat) : (b.blkIn.toList.take (min len 32)).length = min len 32 := by simp

/-- The keystream of the block operand has its effective length (40_keystream.md R105). -/
theorem keyGen_length (b : Block) (len : Nat) (F : Option Bytes) :
    (keyGen b (b.blkIn.toList.take (min len 32)) F).length = min len 32 := by
  rw [keyGen, generate_length, blockOperand_length, Nat.min_eq_left (Nat.min_le_right _ _)]

/-- A string that fits a register stands at its front, zeros after it (00_scope.md R7). -/
theorem pad_toList_of_length {S : Bytes} {n L : Nat} (hlen : S.length = L) (h : L ≤ n) :
    (pad S n).toList = S ++ List.replicate (n - L) 0 := by
  rw [pad_toList, List.take_of_length_le (hlen.trans_le h), hlen]

/-- A string of a register's size is its contents (00_scope.md R7). -/
theorem pad_toList_full {S : Bytes} {n : Nat} (hlen : S.length = n) : (pad S n).toList = S := by
  rw [pad_toList_of_length hlen le_rfl, Nat.sub_self, List.replicate_zero, List.append_nil]

/-! ### GEN -/

/-- GEN with a key (40_keystream.md R110). -/
theorem exec_gen_of_key (s : State) (len : Nat) (hk : s.block.keyv = true) :
    exec (.gen len) s = .next { s with block := (s.block.putOut
      (keyGen s.block (s.block.blkIn.toList.take (min len 32)) s.block.fbop)).release } := by
  show execGen len s = _
  rw [execGen, requireKey_of_keyv _ _ hk, completeWith_next, finish_ok, genRule, inBlock_eq, effLen_eq]
  rfl

/-- GEN without a key records E_NOKEY only (60_exceptions.md R202). -/
theorem exec_gen_of_no_key (s : State) (len : Nat) (hk : s.block.keyv = false) :
    onlyStatus s (exec (.gen len) s) [1, 9] := by
  show onlyStatus s (execGen len s) _
  rw [execGen, requireKey_of_not_keyv _ _ hk]
  exact completeWith_error_onlyStatus s rfl (by decide)

/-- Settles O38: the words by the opcode map, the completion by the two equations above. -/
theorem genWritesKeystreamAndKeepsFeedback : Obligations.GenWritesKeystreamAndKeepsFeedback := by
  refine ⟨lenWords_of_decodeOp fun _ => rfl, fun s len => ⟨fun hk => ?_, exec_gen_of_no_key s len⟩⟩
  have hlen := keyGen_length s.block len s.block.fbop
  exact ⟨_, _, exec_gen_of_key s len hk, hlen, pad_toList_of_length hlen (Nat.min_le_right _ _),
    bitsAre_release (bitsAre_refl _) List.not_mem_nil⟩

/-! ### The stream steps -/

/-- The completion SENC and SDEC share: the guards, then the block operand `B` XORed with the keystream `KS` as output,
and `feed` as the source of the next feedback (41_stream.md R132, R133). -/
def streamCompletion (len : Nat) (B KS feed : Bytes) (s : State) : Host.Outcome State Fault Refusal :=
  completeWith (requireKey s.block (requireOpen s.block
    (.ok ((s.block.putOut (xorBytes B KS)).advance (effLen len) feed)))) s

/-- SENC feeds its keystream (41_stream.md R132). -/
theorem exec_senc (s : State) (len : Nat) :
    let P := s.block.blkIn.toList.take (min len 32)
    let KS := keyGen s.block P s.block.fbop
    exec (.senc len) s = streamCompletion len P KS KS s := by
  show execSenc len s = _
  rw [execSenc, sencRule, inBlock_eq, effLen_eq]
  rfl

/-- SDEC feeds its ciphertext (41_stream.md R133). -/
theorem exec_sdec (s : State) (len : Nat) :
    let C := s.block.blkIn.toList.take (min len 32)
    let KS := keyGen s.block C s.block.fbop
    exec (.sdec len) s = streamCompletion len C KS C s := by
  show execSdec len s = _
  rw [execSdec, sdecRule, inBlock_eq, effLen_eq]
  rfl

section

variable {s : State} {len : Nat} {B KS feed : Bytes}

/-- A stream step without a key records E_NOKEY only (60_exceptions.md R202). -/
theorem streamCompletion_of_no_key (hk : s.block.keyv = false) :
    onlyStatus s (streamCompletion len B KS feed s) [1, 9] := by
  rw [streamCompletion, requireKey_of_not_keyv _ _ hk]
  exact completeWith_error_onlyStatus s rfl (by decide)

/-- A stream step in a closed pass records E_SEQ only (60_exceptions.md R203). -/
theorem streamCompletion_of_closed (hk : s.block.keyv = true) (hc : s.block.sclosed = true) :
    onlyStatus s (streamCompletion len B KS feed s) [1, 10] := by
  rw [streamCompletion, requireKey_of_keyv _ _ hk, requireOpen_of_closed _ _ hc]
  exact completeWith_error_onlyStatus s rfl (by decide)

/-- A stream step with a key and an open pass advances the stream (41_stream.md R132, R133). -/
theorem streamCompletion_of_guards (hk : s.block.keyv = true) (ho : s.block.sclosed = false) :
    streamCompletion len B KS feed s
      = .next { s with block := ((s.block.putOut (xorBytes B KS)).advance (effLen len) feed).release } := by
  rw [streamCompletion, requireKey_of_keyv _ _ hk, requireOpen_of_open _ _ ho, completeWith_next, finish_ok]

/-- A full block: the output, the first 16 bytes of `feed` as feedback, the pass left open (41_stream.md R132, R133). -/
theorem streamCompletion_full (hk : s.block.keyv = true) (ho : s.block.sclosed = false) (hlen : 32 ≤ len)
    (hB : B.length = min len 32) (hKS : KS.length = min len 32) (hfeed : feed.length = min len 32) :
    ∃ out fb fc st,
      streamCompletion len B KS feed s = .next { s with
        block := { s.block with blkOut := out, fb := fb, fbctl := fc, status := st, pend := none } }
      ∧ KS.length = 32 ∧ out.toList = xorBytes B KS ∧ fb.toList = feed.take 16 ∧ fbctlIs s.block.fbctl fc true 16
      ∧ bitsAre s.block.status st [1] [0] := by
  have hfull : effLen len = 32 := Nat.min_eq_right hlen
  refine ⟨pad (xorBytes B KS) 32, pad (feed.take 16) 16, fbctlWith s.block.fbctl true 16#5, s.block.release.status, ?_,
    hKS.trans hfull, pad_toList_full ?_, pad_toList_full ?_,
    ⟨fbv_fbctlWith _ _ _, congrArg BitVec.toNat (fblenField_fbctlWith _ _ _), getLsbD_fbctlWith_reserved _ _ _⟩,
    bitsAre_release (bitsAre_refl _) List.not_mem_nil⟩
  · rw [streamCompletion_of_guards hk ho, hfull, advance_full]
    rfl
  · rw [xorBytes_length]
    omega
  · rw [List.length_take]
    omega

/-- A short block: the output and zeros, the feedback kept, the pass closed (41_stream.md R132, R133). -/
theorem streamCompletion_short (hk : s.block.keyv = true) (ho : s.block.sclosed = false) (hlen : len < 32)
    (hB : B.length = min len 32) (hKS : KS.length = min len 32) :
    ∃ out st,
      streamCompletion len B KS feed s = .next { s with
        block := { s.block with blkOut := out, status := st, pend := none } }
      ∧ KS.length = len ∧ out.toList = xorBytes B KS ++ List.replicate (32 - len) 0
      ∧ bitsAre s.block.status st [1, 3] [0] := by
  have hshort : effLen len = len := Nat.min_eq_left hlen.le
  refine ⟨pad (xorBytes B KS) 32, _, ?_, hKS.trans hshort, pad_toList_of_length ?_ hlen.le,
    bitsAre_release (b := { s.block with status := setBit s.block.status bitSclosed true }) (bitsAre_setBit _ _)
      (by decide)⟩
  · rw [streamCompletion_of_guards hk ho, hshort, advance_short _ _ _ hlen]
    rfl
  · rw [xorBytes_length]
    omega

end

/-- Settles O39: the stream step whose feedback is the keystream. -/
theorem sencEncryptsOneBlock : Obligations.SencEncryptsOneBlock := by
  refine ⟨lenWords_of_decodeOp fun _ => rfl, fun s len => ?_⟩
  intro L P KS
  have hP : P.length = min len 32 := blockOperand_length s.block len
  have hKS : KS.length = min len 32 := keyGen_length s.block len s.block.fbop
  rw [exec_senc]
  exact ⟨fun hk ho hlen => streamCompletion_full hk ho hlen hP hKS hKS,
    fun hk ho hlen => streamCompletion_short hk ho hlen hP hKS, streamCompletion_of_no_key, streamCompletion_of_closed⟩

/-- Settles O40: the stream step whose feedback is the ciphertext. -/
theorem sdecDecryptsOneBlock : Obligations.SdecDecryptsOneBlock := by
  refine ⟨lenWords_of_decodeOp fun _ => rfl, fun s len => ?_⟩
  intro L C KS
  have hC : C.length = min len 32 := blockOperand_length s.block len
  have hKS : KS.length = min len 32 := keyGen_length s.block len s.block.fbop
  rw [exec_sdec]
  exact ⟨fun hk ho hlen => streamCompletion_full hk ho hlen hC hKS hC,
    fun hk ho hlen => streamCompletion_short hk ho hlen hC hKS, streamCompletion_of_no_key, streamCompletion_of_closed⟩

/-! ### LEN above 32 and LEN = 0 -/

/-- LEN acts as min(LEN, 32) (30_encoding.md R83). -/
theorem effLen_min (n : Nat) : effLen (min n 32) = effLen n := by simp [effLen]

/-- An empty block's output is 32 zeros: the parts of O38 to O40 at LEN = 0 (30_encoding.md R83). -/
theorem exec_len_zero (s : State) (hk : s.block.keyv = true) (ho : s.block.sclosed = false) (i : Nat → Instr)
    (hi : i = .gen ∨ i = .senc ∨ i = .sdec) :
    ∃ t, exec (i 0) s = .next t ∧ t.block.blkOut.toList = List.replicate 32 0 := by
  rcases hi with rfl | rfl | rfl
  · obtain ⟨-, hgen⟩ := genWritesKeystreamAndKeepsFeedback
    obtain ⟨hkeyed, -⟩ := hgen s 0
    obtain ⟨out, st, hnext, hlen, hout, -⟩ := hkeyed hk
    rw [List.eq_nil_of_length_eq_zero hlen] at hout
    exact ⟨_, hnext, hout⟩
  · obtain ⟨-, hsenc⟩ := sencEncryptsOneBlock
    obtain ⟨-, hshort, -⟩ := hsenc s 0
    obtain ⟨out, st, hnext, -, hout, -⟩ := hshort hk ho (by decide)
    exact ⟨_, hnext, hout⟩
  · obtain ⟨-, hsdec⟩ := sdecDecryptsOneBlock
    obtain ⟨-, hshort, -⟩ := hsdec s 0
    obtain ⟨out, st, hnext, -, hout, -⟩ := hshort hk ho (by decide)
    exact ⟨_, hnext, hout⟩

/-- Settles O5: LEN enters each meaning through `effLen` only. -/
theorem effectiveLengthIsMinOfLenAnd32 : Obligations.EffectiveLengthIsMinOfLenAnd32 := by
  refine ⟨fun n s => ⟨?_, ?_, ?_⟩, fun i s hi hk ho => exec_len_zero s hk ho i hi⟩
  · show execGen n s = execGen (min n 32) s
    rw [execGen, execGen, effLen_min]
  · show execSenc n s = execSenc (min n 32) s
    rw [execSenc, execSenc, effLen_min]
  · show execSdec n s = execSdec (min n 32) s
    rw [execSdec, execSdec, effLen_min]

end Sys2Proof.Proofs
end

section
/-! The keystream generator (40_keystream.md): the words and the completion of KEYLOAD (R109), the generator's padding and
truncation (R105), the keystream of a shorter block (R112), and what GEN depends on (R111). -/

namespace Sys2Proof.Proofs

open Sys2Proof Sys2Proof.Machine Sys2Proof.Claims

/-! ### KEYLOAD -/

/-- The words of an opcode that the map gives to a command without LEN: the opcode's own word and no other
(30_encoding.md R84, R85). -/
theorem oneWord_of_decodeOp {op : BitVec 8} {word : Word} {i : Instr} (hencode : encode i = word)
    (hword : decode word = some i) (h : ∀ n, decodeOp op.toNat n = withoutLen n i) : oneWord op word i := by
  refine ⟨hencode, fun c hop => ⟨fun hc => hc ▸ hword, fun hc => ?_⟩⟩
  have hfield : opField c = op := hop
  have hnone : decode c = none := by
    by_contra hsome
    obtain ⟨j, hj⟩ := Option.ne_none_iff_exists'.1 hsome
    obtain ⟨hmap, -⟩ := decode_some c j hj
    rw [hfield, h, withoutLen_some] at hmap
    obtain ⟨-, rfl⟩ := hmap
    exact hc (decode_injective hj hword)
  exact ⟨hnone, illegalCompletes_of_decode_none hnone⟩

/-- The end of a completion adds DONE to the bits its rule set and BUSY to those it cleared (30_encoding.md R88). -/
theorem bitsAre_release_of_clear {b : Block} {st : Word} {set clear : List Nat} (h : bitsAre st b.status set clear)
    (hbusy : 0 ∉ set) : bitsAre st b.release.status (1 :: set) (0 :: clear) := by
  intro k hk
  rw [getLsbD_release_status _ _ hk, h k hk]
  by_cases h0 : k = 0
  · subst h0
    simp [hbusy]
  · by_cases h1 : k = 1 <;> simp [h0, h1]

/-- The start of a pass clears SCLOSED only (40_keystream.md R109, 41_stream.md R131). -/
theorem bitsAre_startPass (b : Block) : bitsAre b.status b.startPass.status [] [3] := fun k hk => by
  simp [getLsbD_setBit _ _ _ _ hk]

/-- KEYLOAD's rule sets KEYV and clears SCLOSED (40_keystream.md R109). -/
theorem bitsAre_keyloadRule (b : Block) : bitsAre b.status (keyloadRule b).status [2] [3] := fun k hk => by
  show (setBit b.startPass.status bitKeyv true).getLsbD k = _
  rw [getLsbD_setBit _ _ _ _ hk, bitsAre_startPass b k hk]
  simp

/-- The start of a pass leaves FBV 0 and FBLEN 0 (40_keystream.md R109, 41_stream.md R131). -/
theorem fbctlIs_startPass (b : Block) : fbctlIs b.fbctl b.startPass.fbctl false 0 :=
  ⟨fbv_fbctlWith _ _ _, congrArg BitVec.toNat (fblenField_fbctlWith _ _ _), getLsbD_fbctlWith_reserved _ _ _⟩

/-- Settles O36: the words by the opcode map, the completion by what the start of a pass and the setting of KEYV leave. -/
theorem keyloadValidatesKeyAndRestartsPass : Obligations.KeyloadValidatesKeyAndRestartsPass := by
  refine ⟨oneWord_of_decodeOp rfl (by decide) fun _ => rfl, fun s => ?_⟩
  exact ⟨(keyloadRule s.block).release.status, s.block.startPass.fb, s.block.startPass.fbctl, rfl, rfl,
    fbctlIs_startPass s.block, bitsAre_release_of_clear (bitsAre_keyloadRule s.block) (by decide), seed_toNat s.block,
    noise_eq s.block⟩

/-! ### The generator -/

/-- A register holds the padded string exactly when its bytes are the string's, cut or filled with zeros
(00_scope.md R7). -/
theorem eq_pad_iff {n : Nat} (X : Vector Byte n) (S : Bytes) :
    X = pad S n ↔ X.toList = S.take n ++ List.replicate (n - S.length) 0 := by
  rw [← pad_toList, Vector.toList_inj]

/-- Feedback registers that hold the padded feedback, an absent one staying absent (40_keystream.md R107). -/
theorem eq_map_pad_iff {n : Nat} (Fn : Option (Vector Byte n)) (F : Option Bytes) :
    Fn = F.map (fun G => pad G n) ↔
      Fn.map (fun v => v.toList) = F.map (fun G => G.take n ++ List.replicate (n - G.length) 0) := by
  cases Fn <;> cases F <;> simp [eq_pad_iff]

/-- The keystream by the transform's value at the padded inputs (40_keystream.md R105). -/
theorem keyGen_eq (b : Block) (B : Bytes) (F : Option Bytes) :
    keyGen b B F = (Config.ksgCore b.seed (pad B 32) (F.map fun G => pad G 16)).toList.take (min B.length 32) :=
  slice_zero _ _

/-- Settles O49: the two inputs are the padded ones, since a register is its bytes. -/
theorem generatePadsInputsAndTruncatesOutput : Obligations.GeneratePadsInputsAndTruncatesOutput := by
  intro b B F X Fn hX hFn
  obtain rfl := (eq_pad_iff X B).2 hX
  obtain rfl := (eq_map_pad_iff Fn F).2 hFn
  exact ⟨keyGen_eq b B F, generate_length _ _ _ _⟩

/-- Zeros after a string that fits with them do not change what its register holds (00_scope.md R7). -/
theorem pad_append_zeros (S : Bytes) (k n : Nat) (h : S.length + k ≤ n) :
    pad (S ++ List.replicate k 0) n = pad S n := by
  have hlen : (S ++ List.replicate k (0 : Byte)).length = S.length + k := by simp
  rw [eq_pad_iff, pad_toList_of_length hlen h, List.take_of_length_le (by omega), List.append_assoc,
    List.replicate_append_replicate, show k + (n - (S.length + k)) = n - S.length by omega]

/-- Settles O50: both blocks have the same padded input, and the longer output is cut to the shorter. -/
theorem shorterKeystreamIsPrefixOfZeroPadded : Obligations.ShorterKeystreamIsPrefixOfZeroPadded := by
  intro b B F k h
  rw [keyGen_eq, keyGen_eq, pad_append_zeros B k 32 h, List.take_take, List.length_append, List.length_replicate,
    show min B.length (min (B.length + k) 32) = min B.length 32 by omega]

/-! ### What GEN depends on -/

/-- SEED depends on KEY[0..8) only (10_state.md R36). -/
theorem seed_eq_of_first_eight {b b' : Block} (h : b.key.toList.take 8 = b'.key.toList.take 8) : b.seed = b'.seed :=
  BitVec.eq_of_toNat_eq (by rw [seed_toNat, seed_toNat, h])

/-- Settles O51: with a key, GEN's output is the keystream of the operands named. -/
theorem genOutputDependsOnItsOperandsOnly : Obligations.GenOutputDependsOnItsOperandsOnly := by
  intro s t s' t' len hkey hblk hfb hks hkt hs ht
  rw [exec_gen_of_key s len hks] at hs
  rw [exec_gen_of_key t len hkt] at ht
  injection hs with hs
  injection ht with ht
  rw [← hs, ← ht]
  simp only [Block.release_blkOut, Block.putOut_blkOut, keyGen, seed_eq_of_first_eight hkey, hblk, hfb]

end Sys2Proof.Proofs
end

section
/-! KEY[8..32) affects no step (40_keystream.md R108): a command's rule commutes with a change of these bytes, and the
host's turn carries such a change through. -/

namespace Sys2Proof.Proofs

open Sys2Proof Sys2Proof.Machine Sys2Proof.Claims

/-! ### The rule of a command -/

/-- The rule of each command with its guards (30_encoding.md R88). -/
def guardedRule (i : Instr) (b : Block) : Except Fault Block :=
  match i with
  | .nop => .ok b
  | .keyload => .ok (keyloadRule b)
  | .gen len => requireKey b (.ok (genRule Config.ksgCore (effLen len) b))
  | .sinit => .ok b.startPass
  | .senc len => requireKey b (requireOpen b (.ok (sencRule Config.ksgCore (effLen len) b)))
  | .sdec len => requireKey b (requireOpen b (.ok (sdecRule Config.ksgCore (effLen len) b)))
  | .encode => requireKey b (encodeRule b)
  | .decode => requireKey b (.ok (decodeRule b))
  | .add => addRule b
  | .scale => scaleRule b

/-- A command's completion is that of its guarded rule (30_encoding.md R88). -/
theorem exec_eq_completeWith (i : Instr) (s : State) : exec i s = completeWith (guardedRule i s.block) s := by
  cases i <;> rfl

/-- No command writes KEY (10_state.md R23). -/
theorem exec_keeps_key {i : Instr} {s t : State} (h : exec i s = .next t) : t.block.key = s.block.key := by
  obtain ⟨-, -, -, r, hblock, hkey, -⟩ := exec_shape i s t h
  rw [hblock, Block.release_key, hkey]

/-! ### Commands under another KEY

The guards and the shared operations look at no byte of KEY, so they commute with its change; the rules read it through
SEED and NOISE, so they commute with a change that keeps KEY[0..8). -/

/-- The block with another KEY. -/
def rekey (k : Vector Byte 32) (b : Block) : Block := { b with key := k }

section

variable {b : Block} {k : Vector Byte 32}

theorem requireKey_rekey (r : Except Fault Block) :
    requireKey (rekey k b) (r.map (rekey k)) = (requireKey b r).map (rekey k) := by
  have hkeyv : (rekey k b).keyv = b.keyv := rfl
  rw [requireKey, requireKey, hkeyv]
  cases b.keyv <;> rfl

theorem requireOpen_rekey (r : Except Fault Block) :
    requireOpen (rekey k b) (r.map (rekey k)) = (requireOpen b r).map (rekey k) := by
  have hsclosed : (rekey k b).sclosed = b.sclosed := rfl
  rw [requireOpen, requireOpen, hsclosed]
  cases b.sclosed <;> rfl

theorem writeEr_rekey (x : Int) : writeEr (rekey k b) x = (writeEr b x).map (rekey k) := by
  rw [writeEr, writeEr]
  split <;> rfl

theorem advance_rekey (L : Nat) (F : Bytes) : (rekey k b).advance L F = rekey k (b.advance L F) := by
  rw [Block.advance, Block.advance]
  split <;> rfl

theorem finish_rekey (r : Except Fault Block) : (rekey k b).finish (r.map (rekey k)) = rekey k (b.finish r) := by
  cases r with
  | ok r => rfl
  | error f => cases f <;> rfl

variable (h : b.key.toList.take 8 = k.toList.take 8)

include h

theorem seed_rekey : (rekey k b).seed = b.seed := (seed_eq_of_first_eight h).symm

/-- NOISE depends on KEY[0..4) only (10_state.md R36). -/
theorem noise_rekey : (rekey k b).noise = b.noise := by
  have h4 : k.toList.take 4 = b.key.toList.take 4 := by
    simpa [List.take_take] using (congrArg (List.take 4) h).symm
  rw [noise_eq, noise_eq, ← h4]
  rfl

theorem genRule_rekey (ksg : Config.Ksg) (L : Nat) : genRule ksg L (rekey k b) = rekey k (genRule ksg L b) := by
  rw [genRule, seed_rekey h]
  rfl

theorem sencRule_rekey (ksg : Config.Ksg) (L : Nat) : sencRule ksg L (rekey k b) = rekey k (sencRule ksg L b) := by
  simp only [sencRule, seed_rekey h]
  exact advance_rekey (b := b.putOut _) L _

theorem sdecRule_rekey (ksg : Config.Ksg) (L : Nat) : sdecRule ksg L (rekey k b) = rekey k (sdecRule ksg L b) := by
  simp only [sdecRule, seed_rekey h]
  exact advance_rekey (b := b.putOut _) L _

theorem encodeRule_rekey : encodeRule (rekey k b) = (encodeRule b).map (rekey k) := by
  rw [encodeRule, noise_rekey h]
  exact writeEr_rekey _

theorem decodeRule_rekey : decodeRule (rekey k b) = rekey k (decodeRule b) := by
  rw [decodeRule, noise_rekey h]
  rfl

/-- A command does to the block with another KEY, equal on KEY[0..8), what it does to the block: it reads KEY through SEED
and NOISE only (40_keystream.md R108). -/
theorem guardedRule_rekey (i : Instr) : guardedRule i (rekey k b) = (guardedRule i b).map (rekey k) := by
  cases i with
  | nop => rfl
  | keyload => rfl
  | gen len =>
    rw [guardedRule, genRule_rekey h]
    exact requireKey_rekey (.ok _)
  | sinit => rfl
  | senc len =>
    rw [guardedRule, sencRule_rekey h, guardedRule, ← requireKey_rekey, ← requireOpen_rekey]
    rfl
  | sdec len =>
    rw [guardedRule, sdecRule_rekey h, guardedRule, ← requireKey_rekey, ← requireOpen_rekey]
    rfl
  | encode =>
    rw [guardedRule, encodeRule_rekey h]
    exact requireKey_rekey _
  | decode =>
    rw [guardedRule, decodeRule_rekey h]
    exact requireKey_rekey (.ok _)
  | add => exact writeEr_rekey _
  | scale => exact writeEr_rekey _

end

/-- A completion under another KEY, when its rule commutes with the change. -/
theorem completeWith_withKey (r : Except Fault Block) (s : State) (k : Vector Byte 32) :
    completeWith (r.map (rekey k)) (withKey s k) = .next (withKey { s with block := s.block.finish r } k) := by
  have hfinish : (withKey s k).block.finish (r.map (rekey k)) = rekey k (s.block.finish r) := finish_rekey r
  rw [completeWith_next, hfinish]
  rfl

/-! ### Host steps under another KEY -/

/-- `b'` is `b` but for KEY[8..32). -/
def KeyTailVariant (b b' : Block) : Prop := ∃ k, b' = rekey k b ∧ b.key.toList.take 8 = k.toList.take 8

/-- `s'` is `s` but for KEY[8..32). -/
def StateKeyTailVariant (s s' : State) : Prop := ∃ k, s' = withKey s k ∧ s.block.key.toList.take 8 = k.toList.take 8

/-- A byte written into KEY is written into both keys; any other byte leaves both (10_state.md R23). -/
theorem KeyTailVariant.writeByte {b b' : Block} (h : KeyTailVariant b b') (a : Nat) (x : Byte) :
    KeyTailVariant (b.writeByte a x) (b'.writeByte a x) := by
  obtain ⟨k, rfl, hk⟩ := h
  by_cases ha : a < 0x20
  · rw [writeByte_of_key _ _ _ ha, writeByte_of_key _ _ _ ha]
    refine ⟨k.setIfInBounds a x, rfl, ?_⟩
    rw [setIfInBounds_toList, setIfInBounds_toList, List.take_set, List.take_set, hk]
  · refine ⟨k, ?_, ?_⟩
    · unfold Block.writeByte
      rw [if_neg ha, if_neg ha]
      repeat' split
      all_goals rfl
    · rw [(writeByte_key_status b a x (by omega)).1, hk]

theorem KeyTailVariant.writeBytes {b b' : Block} (h : KeyTailVariant b b') (a : Nat) (xs : Bytes) :
    KeyTailVariant (b.writeBytes a xs) (b'.writeBytes a xs) := by
  induction xs generalizing b b' a with
  | nil => exact h
  | cons x xs ih => exact ih (h.writeByte a x) (a + 1)

/-- A legal write: STATUS, FBCTL and PEND are written alike, bytes by `KeyTailVariant.writeBytes` (20_memory.md R52). -/
theorem KeyTailVariant.hostWrite {b b' : Block} (h : KeyTailVariant b b') (off : BitVec 8) (w : Nat) (v : Word) :
    KeyTailVariant (b.hostWrite off w v) (b'.hostWrite off w v) := by
  have hbytes := h.writeBytes off.toNat (lanes w v)
  obtain ⟨k, rfl, hk⟩ := h
  have hbusy : (rekey k b).busy = b.busy := rfl
  unfold Block.hostWrite
  rw [hbusy]
  split_ifs
  · exact ⟨k, rfl, hk⟩
  · exact ⟨k, rfl, hk⟩
  · exact ⟨k, rfl, hk⟩
  · exact ⟨k, rfl, hk⟩
  · exact hbytes

namespace StateKeyTailVariant

variable {s s' : State} (h : StateKeyTailVariant s s')

include h

theorem withInputs (l : List Input) : StateKeyTailVariant (s.withInputs l) (s'.withInputs l) := by
  obtain ⟨k, rfl, hk⟩ := h
  exact ⟨k, rfl, hk⟩

theorem busy : s'.block.busy = s.block.busy := by
  obtain ⟨k, rfl, -⟩ := h
  rfl

/-- A write, legal or not (20_memory.md R52, R57). -/
theorem hostWrite (off : BitVec 8) (w : Nat) (v : Word) :
    StateKeyTailVariant (hostWrite off w v s) (hostWrite off w v s') := by
  obtain ⟨k, rfl, hk⟩ := h
  obtain ⟨k', hblock, hk'⟩ := KeyTailVariant.hostWrite ⟨k, rfl, hk⟩ off w v
  have hblock' : (withKey s k).block.hostWrite off w v = rekey k' (s.block.hostWrite off w v) := hblock
  have hissues : (withKey s k).block.issues off = s.block.issues off := rfl
  unfold Machine.hostWrite
  rw [hissues, hblock']
  split_ifs
  · exact ⟨k, rfl, hk⟩
  · exact ⟨k', rfl, hk'⟩
  · exact ⟨k', rfl, hk'⟩

/-- A read, legal or not: no value read depends on KEY (10_state.md R23, 20_memory.md R54, R57). -/
theorem hostRead (off : BitVec 8) (w : Nat) (name : Name) :
    StateKeyTailVariant (hostRead off w name s) (hostRead off w name s') := by
  obtain ⟨k, rfl, hk⟩ := h
  unfold Machine.hostRead
  cases legal off w <;> exact ⟨k, rfl, hk⟩

/-- One input taken (20_memory.md R64); a reset leaves both with the same KEY (70_reset_and_hazards.md R230). -/
theorem hostStep : StateKeyTailVariant (hostStep s) (hostStep s') := by
  have hinputs : s'.host.inputs = s.host.inputs := by obtain ⟨k, rfl, -⟩ := h; rfl
  unfold Machine.hostStep
  rw [hinputs, h.busy]
  rcases s.host.inputs with _ | ⟨⟨off, w, v⟩ | ⟨off, w, name⟩ | _ | _, rest⟩
  · exact h
  · exact (h.withInputs rest).hostWrite off w v
  · exact (h.withInputs rest).hostRead off w name
  · cases s.block.busy
    · exact (h.withInputs rest).hostRead 0xC4 32 ['s']
    · exact h.hostRead 0xC4 32 ['s']
  · obtain ⟨k, rfl, -⟩ := h
    exact ⟨Block.reset.key, rfl, rfl⟩

/-- The host's turn (20_memory.md R64). -/
theorem hostTurn : StateKeyTailVariant (hostTurn s) (hostTurn s') := by
  unfold Machine.hostTurn
  rw [h.busy]
  obtain ⟨k, rfl, hk⟩ := h
  cases s.block.busy
  · exact hostStep ⟨k, rfl, hk⟩
  · exact hostStep (s := { s with delay := s.delay - 1 }) ⟨k, rfl, hk⟩

end StateKeyTailVariant

/-! ### Every step -/

/-- Settles O52: a completion keeps the other KEY, by `guardedRule_rekey`; the host's turn carries it through. -/
theorem keyBytesBeyondEightAffectNoStep : Obligations.KeyBytesBeyondEightAffectNoStep := by
  intro s t key' hkey h
  have hturn : (withKey s key').engineTurn = s.engineTurn := rfl
  rcases step_cases s t h with ⟨c, hc, ⟨i, hi, hexec⟩ | ⟨hnone, rfl⟩⟩ | ⟨hnone, rfl⟩
  · have hc' : completes (withKey s key') c := (engineTurn_eq_some s c).1 hc
    have hrule : guardedRule i (withKey s key').block = (guardedRule i s.block).map (rekey key') :=
      guardedRule_rekey hkey i
    refine ⟨key', ?_, by rw [exec_keeps_key hexec, hkey]⟩
    rw [exec_eq_completeWith, completeWith_next] at hexec
    injection hexec with hexec
    rw [step_of_decode_some hc' hi, exec_eq_completeWith, hrule, completeWith_withKey, hexec]
  · have hc' : completes (withKey s key') c := (engineTurn_eq_some s c).1 hc
    refine ⟨key', ?_, hkey⟩
    rw [step_of_decode_none hc' hnone]
    exact completeWith_withKey (.error .eIll) s key'
  · obtain ⟨key'', hnext, hkey''⟩ := StateKeyTailVariant.hostTurn ⟨key', rfl, hkey⟩
    refine ⟨key'', ?_, hkey''⟩
    rw [step_of_engineTurn_none (hturn.trans hnone), hnext]

end Sys2Proof.Proofs
end

section
/-! The stream cipher (41_stream.md): the words and the completion of SINIT (R131), the feedback operand (R130), the
lengths of the whole-payload functions (R137), the round trip of a block (R139), and the device passes (R135, R136). -/

namespace Sys2Proof.Proofs

open Sys2Proof Sys2Proof.Machine Sys2Proof.Claims

/-! ### SINIT and the feedback operand -/

/-- SINIT, whatever the state (41_stream.md R131). -/
theorem exec_sinit (s : State) : exec .sinit s = .next { s with block := s.block.startPass.release } := rfl

/-- Settles O37: the words by the opcode map, the completion by what the start of a pass leaves. -/
theorem sinitRestartsPass : Obligations.SinitRestartsPass := by
  refine ⟨oneWord_of_decodeOp rfl (by decide) fun _ => rfl, fun s => ?_⟩
  exact ⟨s.block.startPass.release.status, s.block.startPass.fb, s.block.startPass.fbctl, exec_sinit s, rfl,
    fbctlIs_startPass s.block, bitsAre_release_of_clear (bitsAre_startPass s.block) List.not_mem_nil⟩

/-- With FBV = 0 there is no feedback operand (41_stream.md R130). -/
theorem fbop_of_not_fbv {b : Block} (h : b.fbv = false) : b.fbop = none := by
  rw [Block.fbop, h, if_neg Bool.false_ne_true]

/-- With FBV = 1 the feedback operand is the first FBLEN bytes of FB (41_stream.md R130). -/
theorem fbop_of_fbv {b : Block} (h : b.fbv = true) : b.fbop = some (b.fb.toList.take b.fblen) := by
  rw [Block.fbop, if_pos h, slice_zero]

/-- Settles O48: FBV and FBLEN are FBCTL[0] and FBCTL[12:8]. -/
theorem feedbackOperandFollowsFbctl : Obligations.FeedbackOperandFollowsFbctl :=
  fun _ => ⟨fbop_of_not_fbv, fun h => ⟨_, fbop_of_fbv h, rfl⟩⟩

/-! ### The round trip of a block -/

/-- The keystream of a block of at most 32 bytes has its length (40_keystream.md R105). -/
theorem keyGen_length_of_le (b : Block) {B : Bytes} (F : Option Bytes) (h : B.length ≤ 32) :
    (keyGen b B F).length = B.length := (generate_length _ _ _ _).trans (Nat.min_eq_left h)

/-- XOR with a string of the same length keeps the length (41_stream.md R134). -/
theorem xorBytes_length_of_eq {S T : Bytes} (h : T.length = S.length) : (xorBytes S T).length = S.length := by
  rw [xorBytes_length, h, Nat.min_self]

/-- Settles O56: XOR with one keystream twice is the identity, and XOR with the ciphertext is injective. -/
theorem roundTripOfABlockNeedsEqualKeystreams : Obligations.RoundTripOfABlockNeedsEqualKeystreams := by
  intro b P F F' hP KS C KS'
  have hKS : KS.length = P.length := keyGen_length_of_le b F hP
  have hC : C.length = P.length := xorBytes_length_of_eq hKS
  have hKS' : KS'.length = C.length := keyGen_length_of_le b F' (hC.trans_le hP)
  have hback : xorBytes C KS = P := xorBytes_cancel P KS hKS.symm
  refine ⟨rfl, fun h => ?_, fun h => h ▸ hback⟩
  exact xorBytes_left_cancel C KS' KS hKS' (hKS.trans hC.symm) (h.trans hback.symm)

/-! ### The payload split -/

/-- Induction along the payload split: each step takes 32 bytes off a nonempty payload (41_stream.md R135). -/
theorem payload_induction {motive : Bytes → Prop} (nil : motive [])
    (cons : ∀ P, P ≠ [] → motive (P.drop 32) → motive P) (P : Bytes) : motive P := by
  induction hn : P.length using Nat.strong_induction_on generalizing P with
  | _ n ih =>
    by_cases hP : P = []
    · exact hP ▸ nil
    · have hpos : 0 < P.length := List.length_pos_iff.2 hP
      exact cons P hP (ih _ (by rw [List.length_drop]; omega) _ rfl)

/-- The payload is its blocks, joined (41_stream.md R135). -/
theorem flatten_payloadBlocks (P : Bytes) : (payloadBlocks P).flatten = P := by
  induction P using payload_induction with
  | nil => rfl
  | cons P hP ih => rw [payloadBlocks_cons P hP, List.flatten_cons, ih, List.take_append_drop]

/-- No block is longer than 32 bytes (41_stream.md R135). -/
theorem length_le_of_mem_payloadBlocks (P : Bytes) : ∀ B ∈ payloadBlocks P, B.length ≤ 32 := by
  induction P using payload_induction with
  | nil => exact List.forall_mem_nil _
  | cons P hP ih =>
    rw [payloadBlocks_cons P hP, List.forall_mem_cons]
    exact ⟨List.length_take_le 32 P, ih⟩

/-! ### The whole-payload functions

StreamEncrypt and StreamDecrypt are one loop; they differ in what they feed back. -/

/-- The loop over blocks that feeds back the first 16 bytes of `feed B KS`, `KS` being the keystream of block `B`
(41_stream.md R135, R136). -/
def streamBlocks (gen : Bytes → Option Bytes → Bytes) (feed : Bytes → Bytes → Bytes) (F : Option Bytes)
    (bs : List Bytes) : Bytes :=
  match bs with
  | [] => []
  | B :: rest => xorBytes B (gen B F) ++ streamBlocks gen feed (some ((feed B (gen B F)).take 16)) rest

/-- SENC and StreamEncrypt feed back the keystream (41_stream.md R132, R135). -/
def keystreamFeed (_B KS : Bytes) : Bytes := KS

/-- SDEC and StreamDecrypt feed back the block they read, the ciphertext (41_stream.md R133, R136). -/
def ciphertextFeed (B _KS : Bytes) : Bytes := B

section

variable (gen : Bytes → Option Bytes → Bytes)

theorem encryptBlocks_eq (F : Option Bytes) (bs : List Bytes) :
    encryptBlocks gen F bs = streamBlocks gen keystreamFeed F bs := by
  induction bs generalizing F with
  | nil => rfl
  | cons B rest ih => rw [encryptBlocks, ih, slice_zero, streamBlocks, keystreamFeed]

theorem decryptBlocks_eq (F : Option Bytes) (bs : List Bytes) :
    decryptBlocks gen F bs = streamBlocks gen ciphertextFeed F bs := by
  induction bs generalizing F with
  | nil => rfl
  | cons B rest ih => rw [decryptBlocks, ih, slice_zero, streamBlocks, ciphertextFeed]

theorem streamEncrypt_eq (P : Bytes) :
    streamEncrypt gen P = streamBlocks gen keystreamFeed none (payloadBlocks P) := encryptBlocks_eq gen _ _

theorem streamDecrypt_eq (C : Bytes) :
    streamDecrypt gen C = streamBlocks gen ciphertextFeed none (payloadBlocks C) := decryptBlocks_eq gen _ _

end

/-- The loop keeps the length of the joined blocks (41_stream.md R137). -/
theorem streamBlocks_length (b : Block) (feed : Bytes → Bytes → Bytes) (F : Option Bytes) {bs : List Bytes}
    (h : ∀ B ∈ bs, B.length ≤ 32) : (streamBlocks (keyGen b) feed F bs).length = bs.flatten.length := by
  induction bs generalizing F with
  | nil => rfl
  | cons B rest ih =>
    obtain ⟨hB, hrest⟩ := List.forall_mem_cons.1 h
    rw [streamBlocks, List.length_append, xorBytes_length_of_eq (keyGen_length_of_le b F hB), ih _ hrest,
      List.flatten_cons, List.length_append]

/-- The loop over a payload's blocks keeps the payload's length (41_stream.md R137). -/
theorem streamBlocks_payload_length (b : Block) (feed : Bytes → Bytes → Bytes) (P : Bytes) :
    (streamBlocks (keyGen b) feed none (payloadBlocks P)).length = P.length := by
  rw [streamBlocks_length b feed none (length_le_of_mem_payloadBlocks P), flatten_payloadBlocks]

/-- Settles O55: both functions are the loop, which keeps the length of the joined blocks. -/
theorem streamFunctionsKeepPayloadLength : Obligations.StreamFunctionsKeepPayloadLength := by
  intro b P
  rw [streamEncrypt_eq, streamDecrypt_eq]
  exact ⟨streamBlocks_payload_length b _ P, streamBlocks_payload_length b _ P, payloadBlocks_nil, rfl,
    flatten_payloadBlocks P, length_le_of_mem_payloadBlocks P⟩

/-! ### The device passes -/

/-- The block in the middle of a pass: a key is loaded, the pass is open, the loaded key's generator is `gen` and the
feedback operand is `F`. -/
structure PassOpen (gen : Bytes → Option Bytes → Bytes) (F : Option Bytes) (b : Block) : Prop where
  keyed : b.keyv = true
  opened : b.sclosed = false
  generator : keyGen b = gen
  feedback : b.fbop = F

/-- The generator depends on KEY only (40_keystream.md R105). -/
theorem keyGen_eq_of_key {b b' : Block} (h : b'.key = b.key) : keyGen b' = keyGen b := by
  funext B F
  rw [keyGen, keyGen, seed_eq_of_first_eight (congrArg (fun k => k.toList.take 8) h)]

/-- With a key, SINIT opens a pass without feedback (41_stream.md R131). -/
theorem passOpen_of_sinit {s t : State} (hk : s.block.keyv = true) (h : exec .sinit s = .next t) :
    PassOpen (keyGen s.block) none t.block := by
  have hkey := exec_keeps_key h
  rw [exec_sinit] at h
  injection h with h
  subst h
  refine ⟨?_, ?_, keyGen_eq_of_key hkey, fbop_of_not_fbv (fbv_fbctlWith _ _ _)⟩
  · rw [keyv_release]
    exact (bitsAre_startPass s.block 2 (by decide)).trans hk
  · rw [sclosed_release]
    exact bitsAre_startPass s.block 3 (by decide)

/-- The command `i` is a stream step that feeds back from `feed`: SENC or SDEC. -/
def StreamStep (i : Nat → Instr) (feed : Bytes → Bytes → Bytes) : Prop :=
  (i = .senc ∧ feed = keystreamFeed) ∨ (i = .sdec ∧ feed = ciphertextFeed)

section

variable {i : Nat → Instr} {feed : Bytes → Bytes → Bytes} (hi : StreamStep i feed)

include hi

/-- What is fed back is as long as the block. -/
theorem StreamStep.feed_length {B KS : Bytes} (h : KS.length = B.length) : (feed B KS).length = B.length := by
  rcases hi with ⟨-, rfl⟩ | ⟨-, rfl⟩
  · exact h
  · rfl

/-- The completion of a stream step with its feed (41_stream.md R132, R133). -/
theorem StreamStep.exec_eq (s : State) (len : Nat) :
    let B := s.block.blkIn.toList.take (min len 32)
    let KS := keyGen s.block B s.block.fbop
    exec (i len) s = streamCompletion len B KS (feed B KS) s := by
  rcases hi with ⟨rfl, rfl⟩ | ⟨rfl, rfl⟩
  · exact exec_senc s len
  · exact exec_sdec s len

end

/-- The feedback update keeps BLK_OUT (41_stream.md R132, R133). -/
theorem advance_blkOut (b : Block) (L : Nat) (feed : Bytes) : (b.advance L feed).blkOut = b.blkOut := by
  rw [Block.advance]
  split <;> rfl

section

variable {gen : Bytes → Option Bytes → Bytes} {F : Option Bytes}

/-- A full block leaves the pass open, its feed's first 16 bytes being the next feedback (41_stream.md R130, R132,
R133). -/
theorem PassOpen.advance_full {b : Block} (h : PassOpen gen F b) (out : Bytes) {feed : Bytes} (hlen : 16 ≤ feed.length) :
    PassOpen gen (some (feed.take 16)) ((b.putOut out).advance 32 feed).release := by
  obtain ⟨hk, ho, hgen, -⟩ := h
  rw [Machine.advance_full]
  exact ⟨(keyv_release _).trans hk, (sclosed_release _).trans ho, hgen, fbop_of_full _ b.fbctl feed hlen rfl rfl⟩

/-- Putting a block into BLK_IN leaves the pass as it is, the block at BLK_IN's front (30_encoding.md R94). -/
theorem PassOpen.writeBytes {b : Block} (h : PassOpen gen F b) {B : Bytes} (hB : B.length ≤ 32) :
    PassOpen gen F (b.writeBytes 0x20 B) ∧ (b.writeBytes 0x20 B).blkIn.toList.take B.length = B := by
  obtain ⟨v, hload, hfront⟩ := writeBytes_blkIn_front B b hB
  obtain ⟨hk, ho, hgen, hfb⟩ := h
  rw [hload]
  exact ⟨⟨hk, ho, hgen, hfb⟩, hfront⟩

/-- A stream step in an open pass on the block at BLK_IN's front: BLK_OUT's front is the block XORed with its keystream,
and a full block leaves the pass open for the next (41_stream.md R132, R133). -/
theorem PassOpen.exec_streamStep {i : Nat → Instr} {feed : Bytes → Bytes → Bytes} (hi : StreamStep i feed) {s : State}
    (h : PassOpen gen F s.block) {B : Bytes} (hB : B.length ≤ 32)
    (hfront : s.block.blkIn.toList.take B.length = B) :
    ∃ t, exec (i B.length) s = .next t
      ∧ t.block.blkOut.toList.take B.length = xorBytes B (gen B F)
      ∧ (B.length = 32 → PassOpen gen (some ((feed B (gen B F)).take 16)) t.block) := by
  have hexec := hi.exec_eq s B.length
  simp only [Nat.min_eq_left hB, hfront, h.generator, h.feedback, streamCompletion_of_guards h.keyed h.opened] at hexec
  have hKS : (gen B F).length = B.length := by rw [← h.generator, keyGen_length_of_le s.block F hB]
  refine ⟨_, hexec, ?_, fun hfull => ?_⟩
  · have hxor := xorBytes_length_of_eq hKS
    rw [Block.release_blkOut, advance_blkOut, Block.putOut_blkOut, pad_toList_of_length hxor hB, List.take_left' hxor]
  · have hfeed : 16 ≤ (feed B (gen B F)).length := by rw [hi.feed_length hKS]; omega
    rw [hfull]
    exact h.advance_full _ hfeed

end

/-- A device pass over a block and then the others. -/
theorem devicePass_cons {i : Nat → Instr} {B : Bytes} {bs : List Bytes} {s t u : State} {out : Bytes}
    (hexec : exec (i B.length) (s.withBlock (s.block.writeBytes 0x20 B)) = .next t)
    (hrest : devicePass i bs t = some (u, out)) :
    devicePass i (B :: bs) s = some (u, t.block.blkOut.toList.take B.length ++ out) := by
  simp only [devicePass, hexec, hrest]

/-- A device pass from an open pass computes the loop, by induction along the payload split: a full block leaves the pass
open for the rest, a short one is the last (41_stream.md R135, R136). -/
theorem PassOpen.devicePass_eq {i : Nat → Instr} {feed : Bytes → Bytes → Bytes} (hi : StreamStep i feed)
    {gen : Bytes → Option Bytes → Bytes} (P : Bytes) {F : Option Bytes} {s : State} (h : PassOpen gen F s.block) :
    ∃ u, devicePass i (payloadBlocks P) s = some (u, streamBlocks gen feed F (payloadBlocks P)) := by
  induction P using payload_induction generalizing F s with
  | nil => exact ⟨s, rfl⟩
  | cons P hP ih =>
    have hB : (P.take 32).length ≤ 32 := List.length_take_le 32 P
    obtain ⟨hloaded, hfront⟩ := h.writeBytes hB
    obtain ⟨t, hexec, hout, hopen⟩ :=
      PassOpen.exec_streamStep (s := s.withBlock (s.block.writeBytes 0x20 (P.take 32))) hi hloaded hB hfront
    rw [payloadBlocks_cons P hP, streamBlocks, ← hout]
    by_cases hfull : 32 ≤ P.length
    · obtain ⟨u, hrest⟩ := ih (hopen (by rw [List.length_take, Nat.min_eq_left hfull]))
      exact ⟨u, devicePass_cons hexec hrest⟩
    · rw [List.drop_eq_nil_of_le (by omega)]
      exact ⟨t, devicePass_cons hexec rfl⟩

/-- Settles O53: after SINIT the pass is open without feedback, and StreamEncrypt is the loop with keystream feedback. -/
theorem sencPassComputesStreamEncrypt : Obligations.SencPassComputesStreamEncrypt := by
  intro s t P hk h
  rw [streamEncrypt_eq]
  exact (passOpen_of_sinit hk h).devicePass_eq (.inl ⟨rfl, rfl⟩) P

/-- Settles O54: after SINIT the pass is open without feedback, and StreamDecrypt is the loop with ciphertext feedback. -/
theorem sdecPassComputesStreamDecrypt : Obligations.SdecPassComputesStreamDecrypt := by
  intro s t C hk h
  rw [streamDecrypt_eq]
  exact (passOpen_of_sinit hk h).devicePass_eq (.inr ⟨rfl, rfl⟩) C

end Sys2Proof.Proofs
end

section
/-! The additive encoder (42_encoder.md): the completion of ENCODE, DECODE, ADD and SCALE (R163 to R166), what DECODE makes
of an exact result (R167, R168), and the laws of ADD and SCALE (R169). -/

namespace Sys2Proof.Proofs

open Sys2Proof Sys2Proof.Machine Sys2Proof.Claims

/-! ### The operands as the integers their registers read as (10_state.md R27, R29) -/

theorem opA_eq (b : Block) : b.opA = beUint b.ea.toList := rfl

theorem opB_eq (b : Block) : b.opB = beUint b.eb.toList := rfl

theorem opV_eq (b : Block) : b.opV = beSint64 b.iv.toList := rfl

/-! ### The ER write and the key guard -/

/-- The state after the completion of a command with the exact result `r` in range (42_encoder.md R162). -/
def erWritten (s : State) (r : Int) : State := s.withBlock { s.block with er := uintReg r.toNat }.release

@[simp] theorem erWritten_er (s : State) (r : Int) : (erWritten s r).block.er = uintReg r.toNat := rfl

/-- ER reads as the exact result (42_encoder.md R161). -/
theorem beUint_er_erWritten (s : State) {r : Int} (h0 : 0 ≤ r) (h1 : r ≤ 2 ^ 64 - 1) :
    (beUint (erWritten s r).block.er.toList : Int) = r := by
  rw [erWritten_er, beUint_uintReg _ (by omega), Int.toNat_of_nonneg h0]

theorem completeWith_writeEr_of_in_range (s : State) {r : Int} (h0 : 0 ≤ r) (h1 : r ≤ 2 ^ 64 - 1) :
    completeWith (writeEr s.block r) s = .next (erWritten s r) := by
  rw [completeWith_next, writeEr_in_range _ _ h0 h1]
  rfl

/-- The completion of a command that writes an exact result to ER, or records E_OVF (42_encoder.md R162). -/
theorem completeWith_writeEr (s : State) (r : Int) :
    (0 ≤ r → r ≤ 2 ^ 64 - 1 → ∃ er st,
        completeWith (writeEr s.block r) s
            = .next { s with block := { s.block with er := er, status := st, pend := none } }
          ∧ (beUint er.toList : Int) = r ∧ bitsAre s.block.status st [1] [0])
    ∧ ((r < 0 ∨ 2 ^ 64 - 1 < r) → onlyStatus s (completeWith (writeEr s.block r) s) [1, 11]) := by
  refine ⟨fun h0 h1 => ?_, fun hout => ?_⟩
  · exact ⟨_, _, completeWith_writeEr_of_in_range s h0 h1, beUint_er_erWritten s h0 h1,
      bitsAre_release (bitsAre_refl _) List.not_mem_nil⟩
  · rw [writeEr_out_of_range _ _ hout]
    exact completeWith_error_onlyStatus s rfl (by decide)

/-- A command that needs a key records E_NOKEY only without one (60_exceptions.md R202). -/
theorem completeWith_requireKey_of_no_key (s : State) (r : Except Fault Block) (hk : s.block.keyv = false) :
    onlyStatus s (completeWith (requireKey s.block r) s) [1, 9] := by
  rw [requireKey_of_not_keyv _ _ hk]
  exact completeWith_error_onlyStatus s rfl (by decide)

/-! ### The four commands -/

/-- IR reads as DECODE's quotient, which always fits (42_encoder.md R164). -/
theorem beSint64_ir_decodeRule (b : Block) :
    beSint64 (decodeRule b).ir.toList = ((b.opA : Int) - b.noise) / 1000 := by
  have hrange := decode_quotient_range b.opA b.noise (beUint_reg8_lt _) (noise_lt b)
  have hwritten : (decodeRule b).ir = sintReg (((b.opA : Int) - b.noise) / 1000) := rfl
  rw [hwritten, beSint64_sintReg _ (by omega) (by omega)]

/-- ADD needs no key (42_encoder.md R165). -/
theorem exec_add (s : State) : exec .add s = completeWith (writeEr s.block (s.block.opA + s.block.opB)) s := rfl

/-- SCALE needs no key (42_encoder.md R166). -/
theorem exec_scale (s : State) : exec .scale s = completeWith (writeEr s.block (s.block.opA * s.block.opV)) s := rfl

section

variable {s : State} {r : Int} (h0 : 0 ≤ r) (h1 : r ≤ 2 ^ 64 - 1)

include h0 h1

theorem exec_add_of_sum (hr : (s.block.opA : Int) + s.block.opB = r) : exec .add s = .next (erWritten s r) := by
  rw [exec_add, hr, completeWith_writeEr_of_in_range s h0 h1]

theorem exec_scale_of_product (hr : s.block.opA * s.block.opV = r) : exec .scale s = .next (erWritten s r) := by
  rw [exec_scale, hr, completeWith_writeEr_of_in_range s h0 h1]

end

/-- ADD out of range records E_OVF and writes no ER (42_encoder.md R165). -/
theorem exec_add_of_overflow {s : State} (h : 2 ^ 64 - 1 < (s.block.opA : Int) + s.block.opB) :
    exec .add s = .next (s.withBlock (s.block.recordFault .eOvf).release) := by
  rw [exec_add, writeEr_out_of_range _ _ (.inr h)]
  rfl

/-- Settles O41: the words by the opcode map, the completion by the ER write and the key guard. -/
theorem encodeWritesScaledValuePlusNoise : Obligations.EncodeWritesScaledValuePlusNoise := by
  refine ⟨oneWord_of_decodeOp rfl (by decide) fun _ => rfl, fun s => ?_⟩
  simp only [← noise_eq]
  refine ⟨fun hk => ?_, fun hk => ?_, completeWith_requireKey_of_no_key s _⟩
  all_goals rw [exec_encode_of_key s hk, ← completeWith_next]
  · exact (completeWith_writeEr s _).1
  · exact (completeWith_writeEr s _).2

/-- Settles O42: the words by the opcode map, the completion by the quotient IR reads as. -/
theorem decodeWritesFloorQuotient : Obligations.DecodeWritesFloorQuotient := by
  refine ⟨oneWord_of_decodeOp rfl (by decide) fun _ => rfl, fun s => ⟨fun hk => ?_,
    completeWith_requireKey_of_no_key s _⟩⟩
  have hquotient := beSint64_ir_decodeRule s.block
  obtain ⟨hlow, hhigh⟩ := decode_quotient_range s.block.opA s.block.noise (beUint_reg8_lt _) (noise_lt s.block)
  refine ⟨(decodeRule s.block).ir, _, exec_decode_of_key s hk, ?_, hquotient ▸ hlow, hquotient ▸ hhigh,
    bitsAre_release (bitsAre_refl _) List.not_mem_nil⟩
  simp only [← noise_eq, ← opA_eq, hquotient]
  omega

/-- Settles O43: the words by the opcode map, the completion by the ER write of a sum, which is never negative. -/
theorem addWritesSumOrOverflows : Obligations.AddWritesSumOrOverflows := by
  refine ⟨oneWord_of_decodeOp rfl (by decide) fun _ => rfl, fun s => ?_⟩
  simp only [← opA_eq, ← opB_eq]
  obtain ⟨hwrite, hoverflow⟩ := completeWith_writeEr s (s.block.opA + s.block.opB)
  refine ⟨fun hfits => ?_, fun hout => hoverflow (.inr (by omega))⟩
  obtain ⟨er, st, hexec, hread, hst⟩ := hwrite (by omega) (by omega)
  exact ⟨er, st, hexec, by exact_mod_cast hread, hst⟩

/-- Settles O44: the words by the opcode map, the completion by the ER write. -/
theorem scaleWritesProductOrOverflows : Obligations.ScaleWritesProductOrOverflows :=
  ⟨oneWord_of_decodeOp rfl (by decide) fun _ => rfl, fun s => completeWith_writeEr s _⟩

/-! ### DECODE of a result -/

/-- DECODE of a result in range, copied to EA, with the key of the command that wrote it (42_encoder.md R167, R168). -/
theorem decode_of_erWritten {s : State} (hk : s.block.keyv = true) {r : Int} (h0 : 0 ≤ r) (h1 : r ≤ 2 ^ 64 - 1) :
    ∃ u, exec .decode (copyErToEa (erWritten s r)) = .next u
      ∧ beSint64 u.block.ir.toList = (r - s.block.noise) / 1000 := by
  have hkey : (copyErToEa (erWritten s r)).block.keyv = true := (keyv_release _).trans hk
  have hA : ((copyErToEa (erWritten s r)).block.opA : Int) = r := beUint_er_erWritten s h0 h1
  have hnoise : (copyErToEa (erWritten s r)).block.noise = s.block.noise := rfl
  refine ⟨_, exec_decode_of_key _ hkey, ?_⟩
  rw [Block.release_ir, beSint64_ir_decodeRule, hA, hnoise]

/-- Settles O57: in the safe range ENCODE's result fits, and subtracting the noise leaves a multiple of 1000. -/
theorem encodeThenDecodeReturnsValueInSafeRangeOnly : Obligations.EncodeThenDecodeReturnsValueInSafeRangeOnly := by
  intro s hk
  have hn := noise_lt s.block
  simp only [← noise_eq, ← opV_eq, exec_encode_of_key s hk]
  refine ⟨fun hlow hhigh => ?_, fun hout => (completeWith_writeEr s _).2 (by omega)⟩
  have h0 : 0 ≤ s.block.opV * 1000 + s.block.noise := by omega
  have h1 : s.block.opV * 1000 + s.block.noise ≤ 2 ^ 64 - 1 := by omega
  obtain ⟨u, hdecode, hread⟩ := decode_of_erWritten hk h0 h1
  exact ⟨_, u, completeWith_writeEr_of_in_range s h0 h1, hdecode, hread.trans (by omega)⟩

/-- Settles O58: the sum carries the noise twice; DECODE subtracts it once, and what is left is below 1000. -/
theorem sumOfTwoEncodingsDecodesExactly : Obligations.SumOfTwoEncodingsDecodesExactly := by
  intro s v w
  have hn := noise_lt s.block
  simp only [← noise_eq, ← opA_eq, ← opB_eq]
  intro hk hA hB hfits
  have h0 : (0 : Int) ≤ (1000 * (v + w) + 2 * s.block.noise : Nat) := Int.natCast_nonneg _
  have h1 : ((1000 * (v + w) + 2 * s.block.noise : Nat) : Int) ≤ 2 ^ 64 - 1 := by omega
  obtain ⟨u, hdecode, hread⟩ := decode_of_erWritten hk h0 h1
  exact ⟨_, u, exec_add_of_sum h0 h1 (by omega), Int.natCast_inj.1 (beUint_er_erWritten s h0 h1), hdecode,
    hread.trans (by omega)⟩

/-- The quotient DECODE makes of a scaled encoding (42_encoder.md R168). -/
theorem scaled_quotient (v m n : Nat) (hn : n < 1000) :
    (((1000 * v * m + m * n : Nat) : Int) - n) / 1000
      = if m = 0 then (if n = 0 then 0 else -1) else ((v * m + (m - 1) * n / 1000 : Nat) : Int) := by
  cases m with
  | zero => split_ifs <;> omega
  | succ m =>
    have hsplit : 1000 * v * (m + 1) + (m + 1) * n = 1000 * (v * (m + 1)) + m * n + n := by ring
    rw [hsplit, if_neg (Nat.succ_ne_zero m), Nat.add_sub_cancel]
    omega

/-- Settles O59: the product carries the noise `m` times, of which DECODE subtracts one. -/
theorem scaledEncodingDecodesWithBias : Obligations.ScaledEncodingDecodesWithBias := by
  intro s v m
  simp only [← noise_eq, ← opA_eq, ← opV_eq]
  intro hk hA hV hfits
  have hexpand : (1000 * v + s.block.noise) * m = 1000 * v * m + m * s.block.noise := by ring
  have hproduct : s.block.opA * s.block.opV = (1000 * v * m + m * s.block.noise : Nat) := by
    rw [hA, hV, ← hexpand, Nat.cast_mul]
  rw [hexpand] at hfits
  have h0 : (0 : Int) ≤ (1000 * v * m + m * s.block.noise : Nat) := Int.natCast_nonneg _
  have h1 : ((1000 * v * m + m * s.block.noise : Nat) : Int) ≤ 2 ^ 64 - 1 := by omega
  obtain ⟨u, hdecode, hread⟩ := decode_of_erWritten hk h0 h1
  exact ⟨_, u, exec_scale_of_product h0 h1 hproduct, Int.natCast_inj.1 (beUint_er_erWritten s h0 h1), hdecode,
    hread.trans (scaled_quotient v m _ (noise_lt s.block))⟩

/-! ### The laws of ADD and SCALE (42_encoder.md R169) -/

/-- ADD of the operands swapped leaves the same ER and STATUS, in range or not. -/
theorem exec_add_swapped (s : State) :
    ∃ t t', exec .add s = .next t
      ∧ exec .add { s with block := { s.block with ea := s.block.eb, eb := s.block.ea } } = .next t'
      ∧ t'.block.er = t.block.er ∧ t'.block.status = t.block.status := by
  have hcomm : (s.block.opB : Int) + s.block.opA = s.block.opA + s.block.opB := Int.add_comm _ _
  by_cases hfits : (s.block.opA : Int) + s.block.opB ≤ 2 ^ 64 - 1
  · have h0 : (0 : Int) ≤ s.block.opA + s.block.opB := by omega
    exact ⟨_, _, exec_add_of_sum h0 hfits rfl, exec_add_of_sum h0 hfits hcomm, rfl, rfl⟩
  · have hout : 2 ^ 64 - 1 < (s.block.opA : Int) + s.block.opB := by omega
    exact ⟨_, _, exec_add_of_overflow hout, exec_add_of_overflow (hout.trans_eq hcomm.symm), rfl, rfl⟩

/-- ADD is associative when no sum overflows: both orders write the sum of the three. -/
theorem exec_add_assoc {s t : State} {c : Vector Byte 8}
    (hfits : s.block.opA + s.block.opB + beUint c.toList ≤ 2 ^ 64 - 1) (ht : exec .add s = .next t) :
    ∃ u p q, exec .add { s with block := { s.block with ea := s.block.eb, eb := c } } = .next u
      ∧ exec .add { s with block := { s.block with ea := t.block.er, eb := c } } = .next p
      ∧ exec .add { s with block := { s.block with eb := u.block.er } } = .next q
      ∧ p.block.er = q.block.er := by
  have hab : (s.block.opA : Int) + s.block.opB ≤ 2 ^ 64 - 1 := by omega
  have hbc : (s.block.opB : Int) + beUint c.toList ≤ 2 ^ 64 - 1 := by omega
  have habc : (s.block.opA : Int) + s.block.opB + beUint c.toList ≤ 2 ^ 64 - 1 := by omega
  rw [exec_add_of_sum (by omega) hab rfl] at ht
  injection ht with ht
  subst ht
  refine ⟨_, _, _, exec_add_of_sum (by omega) hbc rfl, exec_add_of_sum (by omega) habc ?_,
    exec_add_of_sum (by omega) habc ?_, rfl⟩
  · show (beUint _ : Int) + beUint c.toList = _
    rw [beUint_er_erWritten s (by omega) hab]
  · show (s.block.opA : Int) + beUint _ = _
    rw [beUint_er_erWritten _ (by omega) hbc, Int.add_assoc]

/-- SCALE by one scalar and then another is SCALE by their product, when nothing overflows. -/
theorem exec_scale_scale {s : State} {iv iv' : Vector Byte 8} (h0 : 0 ≤ s.block.opA * s.block.opV)
    (h1 : s.block.opA * s.block.opV ≤ 2 ^ 64 - 1) (h0' : 0 ≤ s.block.opA * s.block.opV * beSint64 iv.toList)
    (h1' : s.block.opA * s.block.opV * beSint64 iv.toList ≤ 2 ^ 64 - 1)
    (hiv' : beSint64 iv'.toList = s.block.opV * beSint64 iv.toList) :
    ∃ t u p, exec .scale s = .next t
      ∧ exec .scale { s with block := { s.block with ea := t.block.er, iv := iv } } = .next u
      ∧ exec .scale { s with block := { s.block with iv := iv' } } = .next p
      ∧ u.block.er = p.block.er := by
  refine ⟨_, _, _, exec_scale_of_product h0 h1 rfl, exec_scale_of_product h0' h1' ?_,
    exec_scale_of_product h0' h1' ?_, rfl⟩
  · show (beUint _ : Int) * beSint64 iv.toList = _
    rw [beUint_er_erWritten s h0 h1]
  · show s.block.opA * beSint64 iv'.toList = _
    rw [hiv', Int.mul_assoc]

/-- Settles O60, law by law. -/
theorem addAndScaleObeyArithmeticLaws : Obligations.AddAndScaleObeyArithmeticLaws :=
  ⟨exec_add_swapped, fun _ _ _ hfits ht => exec_add_assoc hfits ht,
    fun _ _ _ h0 h1 h0' h1' hiv' => exec_scale_scale h0 h1 h0' h1' hiv'⟩

end Sys2Proof.Proofs
end

section
/-! NOP (43_control.md R190): its words, its completion, and a CMD write of 0 while BUSY = 1. -/

namespace Sys2Proof.Proofs

open Sys2Proof Sys2Proof.Machine Sys2Proof.Claims

/-- NOP's completion is the end of every completion with no rule before it. -/
theorem exec_nop (s : State) : exec .nop s = .next { s with block := s.block.release } := rfl

/-- NOP completes in every state, with or without a key, and sets DONE only. -/
theorem exec_nop_onlyStatus (s : State) : onlyStatus s (exec .nop s) [1] :=
  ⟨s.block.release.status, exec_nop s, bitsAre_release (bitsAre_refl _) List.not_mem_nil⟩

/-- Settles O35: the words by the opcode map, the completion by `exec_nop_onlyStatus`, and a CMD write of 0 while BUSY = 1
as one of any word (O24). -/
theorem nopOnlySetsDone : Obligations.NopOnlySetsDone := by
  refine ⟨oneWord_of_decodeOp rfl (by decide) fun _ => rfl, exec_nop_onlyStatus, fun s rest h hbusy => ?_⟩
  obtain ⟨-, hignored⟩ := cmdWriteIssuesWhenIdleAndIsIgnoredWhenBusy s 0 rest h
  exact hignored hbusy

end Sys2Proof.Proofs
end

section
/-! Errors (60_exceptions.md): which error a command's rule raises, by the guards of R207 and the exact result of R204, and
what its completion leaves; ILLEGAL words (R201), writes while BUSY = 1 (R205), and that nothing stops the machine
(R209). -/

namespace Sys2Proof.Proofs

open Sys2Proof Sys2Proof.Machine Sys2Proof.Claims

/-! ### The error bits -/

/-- STATUS `st'` holds the error bits E_ILL to E_BUSY of `st` (10_state.md R32). -/
def errorBitsKept (st st' : Word) : Prop := ∀ k, 8 ≤ k → k ≤ 12 → st'.getLsbD k = st.getLsbD k

theorem errorBitsKept_refl (st : Word) : errorBitsKept st st := fun _ _ _ => rfl

/-- The flags BUSY, DONE, KEYV and SCLOSED are no error bits (10_state.md R32). -/
theorem errorBitsKept_setBit {st st' : Word} (h : errorBitsKept st st') {j : Nat} (hj : j < 8) (v : Bool) :
    errorBitsKept st (setBit st' j v) := by
  intro k low high
  rw [getLsbD_setBit _ _ _ _ (by omega), if_neg (by omega), h k low high]

theorem errorBitsKept_startPass (b : Block) : errorBitsKept b.status b.startPass.status :=
  errorBitsKept_setBit (errorBitsKept_refl _) (by decide) _

theorem errorBitsKept_keyloadRule (b : Block) : errorBitsKept b.status (keyloadRule b).status :=
  errorBitsKept_setBit (errorBitsKept_startPass b) (by decide) _

/-- A stream step writes no STATUS bit but SCLOSED (41_stream.md R132, R133). -/
theorem errorBitsKept_advance (b : Block) (L : Nat) (feed : Bytes) : errorBitsKept b.status (b.advance L feed).status := by
  rw [Block.advance]
  split
  · exact errorBitsKept_refl _
  · exact errorBitsKept_setBit (errorBitsKept_refl _) (by decide) _

/-- The end of a completion writes DONE and BUSY (30_encoding.md R88). -/
theorem errorBitsKept_release {st : Word} {b : Block} (h : errorBitsKept st b.status) :
    errorBitsKept st b.release.status :=
  errorBitsKept_setBit (errorBitsKept_setBit h (by decide) _) (by decide) _

/-! ### Which error a command's rule raises (60_exceptions.md R207) -/

/-- The stream steps are among the commands that need a key (30_encoding.md R88). -/
theorem keyCommand_of_streamCommand {i : Instr} (h : streamCommand i) : keyCommand i := by
  obtain ⟨n, hi⟩ := h
  exact .inl ⟨n, .inr hi⟩

theorem guardedRule_of_no_key {i : Instr} {b : Block} (hi : keyCommand i) (hk : b.keyv = false) :
    guardedRule i b = .error .eNokey := by
  rcases hi with ⟨n, rfl | rfl | rfl⟩ | rfl | rfl
  all_goals exact requireKey_of_not_keyv _ _ hk

theorem guardedRule_of_closed {i : Instr} {b : Block} (hi : streamCommand i) (hk : b.keyv = true)
    (hc : b.sclosed = true) : guardedRule i b = .error .eSeq := by
  obtain ⟨n, rfl | rfl⟩ := hi
  all_goals rw [guardedRule, requireKey_of_keyv _ _ hk, requireOpen_of_closed _ _ hc]

/-- The answer `r` of a rule whose guards are met: E_OVF exactly when the command's exact result is out of range, else a
block with its error bits kept (60_exceptions.md R204, R207). -/
def overflowOrOk (i : Instr) (b : Block) (r : Except Fault Block) : Prop :=
  (overflows i b ∧ r = .error .eOvf) ∨ (¬ overflows i b ∧ ∃ b', r = .ok b' ∧ errorBitsKept b.status b'.status)

/-- A command without an exact result does not overflow. -/
theorem overflowOrOk_ok {i : Instr} {b b' : Block} (hi : exactResult i b = 0) (h : errorBitsKept b.status b'.status) :
    overflowOrOk i b (.ok b') := by
  refine .inr ⟨?_, b', rfl, h⟩
  rw [overflows, hi]
  decide

/-- The ER write of the exact result overflows exactly when the command does (42_encoder.md R162). -/
theorem overflowOrOk_writeEr (i : Instr) (b : Block) : overflowOrOk i b (writeEr b (exactResult i b)) := by
  rcases writeEr_cases b (exactResult i b) with ⟨h0, h1, hwrite⟩ | ⟨hout, hwrite⟩
  · have hfits : ¬ overflows i b := by rw [overflows]; omega
    exact .inr ⟨hfits, _, hwrite, errorBitsKept_refl _⟩
  · exact .inl ⟨hout, hwrite⟩

/-- The rule of ENCODE writes its exact result (42_encoder.md R163). -/
theorem encodeRule_eq (b : Block) : encodeRule b = writeEr b (exactResult .encode b) := by
  rw [encodeRule, noise_eq]
  rfl

/-- Beyond its guards a command raises E_OVF or nothing (60_exceptions.md R204, R207). -/
theorem guardedRule_of_guards_met {i : Instr} {b : Block} (hkey : ¬ (keyCommand i ∧ b.keyv = false))
    (hopen : ¬ (streamCommand i ∧ b.sclosed = true)) : overflowOrOk i b (guardedRule i b) := by
  have hk : keyCommand i → b.keyv = true := fun hi => by simpa [hi] using hkey
  have ho : streamCommand i → b.sclosed = false := fun hi => by simpa [hi] using hopen
  have hstream (hi : streamCommand i) (r : Except Fault Block) : requireKey b (requireOpen b r) = r := by
    rw [requireKey_of_keyv _ _ (hk (keyCommand_of_streamCommand hi)), requireOpen_of_open _ _ (ho hi)]
  cases i with
  | nop => exact overflowOrOk_ok rfl (errorBitsKept_refl _)
  | keyload => exact overflowOrOk_ok rfl (errorBitsKept_keyloadRule b)
  | sinit => exact overflowOrOk_ok rfl (errorBitsKept_startPass b)
  | gen len =>
    rw [guardedRule, requireKey_of_keyv _ _ (hk (.inl ⟨len, .inl rfl⟩))]
    exact overflowOrOk_ok rfl (errorBitsKept_refl _)
  | senc len =>
    rw [guardedRule, hstream ⟨len, .inl rfl⟩]
    exact overflowOrOk_ok rfl (errorBitsKept_advance (b.putOut _) _ _)
  | sdec len =>
    rw [guardedRule, hstream ⟨len, .inr rfl⟩]
    exact overflowOrOk_ok rfl (errorBitsKept_advance (b.putOut _) _ _)
  | encode =>
    rw [guardedRule, requireKey_of_keyv _ _ (hk (.inr (.inl rfl))), encodeRule_eq]
    exact overflowOrOk_writeEr .encode b
  | decode =>
    rw [guardedRule, requireKey_of_keyv _ _ (hk (.inr (.inr rfl)))]
    exact overflowOrOk_ok rfl (errorBitsKept_refl _)
  | add => exact overflowOrOk_writeEr .add b
  | scale => exact overflowOrOk_writeEr .scale b

/-! ### What the completion leaves (60_exceptions.md R208) -/

section

variable {i : Instr} {s : State}

theorem exec_of_no_key (hi : keyCommand i) (hk : s.block.keyv = false) : onlyStatus s (exec i s) [1, 9] := by
  rw [exec_eq_completeWith, guardedRule_of_no_key hi hk]
  exact completeWith_error_onlyStatus s rfl (by decide)

theorem exec_of_closed (hi : streamCommand i) (hk : s.block.keyv = true) (hc : s.block.sclosed = true) :
    onlyStatus s (exec i s) [1, 10] := by
  rw [exec_eq_completeWith, guardedRule_of_closed hi hk hc]
  exact completeWith_error_onlyStatus s rfl (by decide)

/-- With its guards met, a command records E_OVF only, or no error (60_exceptions.md R204, R207). -/
theorem exec_of_guards_met (hkey : ¬ (keyCommand i ∧ s.block.keyv = false))
    (hopen : ¬ (streamCommand i ∧ s.block.sclosed = true)) :
    (overflows i s.block ∧ onlyStatus s (exec i s) [1, 11])
    ∨ (¬ overflows i s.block ∧ ∃ t, exec i s = .next t ∧ errorBitsKept s.block.status t.block.status) := by
  rw [exec_eq_completeWith]
  rcases guardedRule_of_guards_met hkey hopen with ⟨hout, hrule⟩ | ⟨hfits, b', hrule, hkept⟩
  · rw [hrule]
    exact .inl ⟨hout, completeWith_error_onlyStatus s rfl (by decide)⟩
  · rw [hrule]
    exact .inr ⟨hfits, _, completeWith_next _ _, errorBitsKept_release hkept⟩

end

/-- A completion changes one error bit and nothing else but DONE, BUSY and PEND, or it changes no error bit
(60_exceptions.md R208). -/
theorem exec_onlyStatus_or_errorBitsKept (i : Instr) (s : State) :
    (∃ j, onlyStatus s (exec i s) [1, j])
    ∨ ∃ t, exec i s = .next t ∧ errorBitsKept s.block.status t.block.status := by
  by_cases hkey : keyCommand i ∧ s.block.keyv = false
  · exact .inl ⟨9, exec_of_no_key hkey.1 hkey.2⟩
  by_cases hopen : streamCommand i ∧ s.block.sclosed = true
  · have hk : s.block.keyv = true := by simpa [keyCommand_of_streamCommand hopen.1] using hkey
    exact .inl ⟨10, exec_of_closed hopen.1 hk hopen.2⟩
  rcases exec_of_guards_met hkey hopen with ⟨-, h⟩ | ⟨-, h⟩
  · exact .inl ⟨11, h⟩
  · exact .inr h

/-- The STATUS bits after a completion that changes nothing but the listed ones. -/
theorem bitsAre_of_onlyStatus {s t : State} {o : Host.Outcome State Fault Refusal} {set : List Nat}
    (h : onlyStatus s o set) (ht : o = .next t) : bitsAre s.block.status t.block.status set [0] := by
  obtain ⟨st, rfl, hst⟩ := h
  cases ht
  exact hst

/-! ### The obligations -/

/-- Settles O8: the three kinds of words are the ones that do not decode. -/
theorem illegalWordRecordsOnlyEIll : Obligations.IllegalWordRecordsOnlyEIll :=
  fun s c hc hkind => illegalCompletes_of_decode_none ((decode_eq_none_iff c).2 hkind) s hc

/-- Settles O25: while BUSY = 1 a write off STATUS, to CMD too, issues nothing and records E_BUSY. -/
theorem busyWriteOnlySetsEBusy : Obligations.BusyWriteOnlySetsEBusy := by
  intro s off w v rest h hl hoff hbusy
  have hissue : s.block.issues off = false := by rw [Block.issues, hbusy, Bool.not_true, Bool.and_false]
  have hwrite : s.block.hostWrite off w v = { s.block with status := setBit s.block.status bitEBusy true } := by
    rw [Block.hostWrite, if_neg hoff, if_pos hbusy]
    rfl
  refine ⟨setBit s.block.status bitEBusy true, ?_, bitsAre_setBit _ _⟩
  rw [step_write h, hostWrite, hl, afterInput_block, hissue, hwrite]
  rfl

/-- Settles O45: a command that needs no key has its guards met, and then E_OVF is the only bit it may set. -/
theorem keylessKeyCommandsRecordOnlyENokey : Obligations.KeylessKeyCommandsRecordOnlyENokey := by
  refine ⟨fun i s hi hk => exec_of_no_key hi hk, fun i s t hi ht => ?_⟩
  have hkey : ¬ (keyCommand i ∧ s.block.keyv = false) := fun h => hi h.1
  have hopen : ¬ (streamCommand i ∧ s.block.sclosed = true) := fun h => hi (keyCommand_of_streamCommand h.1)
  rcases exec_of_guards_met hkey hopen with ⟨-, hovf⟩ | ⟨-, t', ht', hkept⟩
  · exact bitsAre_of_onlyStatus hovf ht 9 (by decide)
  · cases ht.symm.trans ht'
    exact hkept 9 (by decide) (by decide)

/-- Settles O46: the bit turned on is the one the completion lists, since a completion without one keeps all error bits. -/
theorem erringCommandHasNoOtherEffect : Obligations.ErringCommandHasNoOtherEffect := by
  intro i s t k ht low high hoff hon
  rcases exec_onlyStatus_or_errorBitsKept i s with ⟨j, hj⟩ | ⟨t', ht', hkept⟩
  · have hbit := bitsAre_of_onlyStatus hj ht k (by omega)
    have hk : k ≠ 1 ∧ k ≠ 0 := by omega
    have hkj : k = j := by simpa [hon, hoff, hk] using hbit
    rw [hkj]
    exact hj
  · cases ht.symm.trans ht'
    rw [hkept k low high, hoff] at hon
    cases hon

/-- Settles O47, guard by guard in the order of R207. -/
theorem firstErrorByPriorityIsTheOnlyOneReported : Obligations.FirstErrorByPriorityIsTheOnlyOneReported := by
  intro s c hc
  refine ⟨fun hnone => illegalCompletes_of_decode_none hnone s hc, fun i hi => ?_⟩
  rw [step_of_decode_some hc hi]
  refine ⟨exec_of_no_key, exec_of_closed, fun hkey hopen => ?_⟩
  rcases exec_of_guards_met hkey hopen with ⟨hout, hovf⟩ | ⟨hfits, t, ht, hkept⟩
  · exact ⟨fun _ => hovf, fun hfits => absurd hout hfits⟩
  · refine ⟨fun hout => absurd hout hfits, fun _ => ⟨t, ht, fun k hk => ?_⟩⟩
    simp only [List.mem_cons, List.not_mem_nil, or_false] at hk
    exact hkept k (by omega) (by omega)

/-- Settles O9: the engine completes its word, or the host has its turn. -/
theorem everyStepAnswersNextState : Obligations.EveryStepAnswersNextState := by
  intro s
  cases hturn : s.engineTurn with
  | some c =>
    obtain ⟨r, hstep⟩ := step_completes ((engineTurn_eq_some s c).1 hturn)
    exact ⟨_, hstep⟩
  | none => exact ⟨_, step_of_engineTurn_none hturn⟩

end Sys2Proof.Proofs
end

section
/-! Reset (70_reset_and_hazards.md R230, R231): what the block holds after it, and the reset event as a host step, taken
idle or with a command pending. -/

namespace Sys2Proof.Proofs

open Sys2Proof Sys2Proof.Machine Sys2Proof.Claims

/-! ### The reset event -/

/-- Taking a reset drops the input and resets the block (70_reset_and_hazards.md R231). -/
theorem hostStep_reset {s : State} {rest : List Input} (h : s.host.inputs = .reset :: rest) :
    hostStep s = resetEvent (s.withInputs rest) := by
  rw [hostStep, h]

/-- A step that takes a reset ends in one state, whether or not a command is pending: what an idle step of the engine takes
off `delay` is lost when the reset event sets it to 0. -/
theorem step_reset {s : State} {rest : List Input} (h : hostTakes s .reset rest) :
    step s = .next (resetEvent (afterInput s rest)) := by
  rw [step_of_engineTurn_none (engineTurn_of_hostTakes h), hostTurn]
  obtain ⟨hin, -⟩ := h
  cases s.block.busy
  · rw [if_neg Bool.false_ne_true, hostStep_reset hin]
    rfl
  · rw [if_pos rfl, hostStep_reset (s := { s with delay := s.delay - 1 }) hin]
    rfl

/-- Settles O13: the step is the reset event, which replaces the block and leaves the host's side. -/
theorem resetEventAbandonsPendingCommand : Obligations.ResetEventAbandonsPendingCommand := by
  intro s rest h
  exact ⟨_, step_reset h, resetEvent_block _, resetEvent_host _⟩

/-! ### The block after reset -/

/-- Settles O11: the machine's invariant is its block's, which `reset_inv` gives. -/
theorem resetSatisfiesInvariant : Obligations.ResetSatisfiesInvariant := reset_inv

/-- Settles O12: each byte register is a vector of zeros, and STATUS, FBCTL and PEND are 0, 0 and none by definition. -/
theorem resetLeavesEveryRegisterZero : Obligations.ResetLeavesEveryRegisterZero := by
  refine ⟨?_, ?_, ?_, ?_, ?_, ?_, ?_, ?_, ?_, rfl, rfl, rfl⟩ <;> exact Vector.toList_replicate

end Sys2Proof.Proofs
end
